-- ==== Sys2Proof/Word.lean ====
section
/-! DEFINITION. The widths of nexus433-core as bit vectors: 00_scope.md R5, R6 and the parameter table of its
section 4 (`TW = 32`, `ACC_W = 36`, `CNT_W = 6`), the formats of 30_encoding.md R45 and the decoder's operand
port of 10_state.md R26. In every value bit 0 is the least significant one (00_scope.md R7). -/

namespace Sys2Proof

/-- A timestamp or a duration in microseconds, `TW = 32` bits (00_scope.md R6, decision D1; log 1). -/
abbrev Timestamp := BitVec 32

/-- The packet accumulator `acc`, `ACC_W = 36` bits (00_scope.md R5, decision D6). -/
abbrev Acc := BitVec 36

/-- The bit counter `bit_count`, `CNT_W = 6` bits (00_scope.md R5, decision D6). -/
abbrev Count := BitVec 6

/-- A command word, format `CMD`, `TW + 3 = 35` bits (30_encoding.md R46). -/
abbrev CmdWord := BitVec 35

/-- A dispatch word, format `DISPATCH`, 9 bits (30_encoding.md R51). -/
abbrev DispatchWord := BitVec 9

/-- A word on the decoder's port `dec_packet`, "36 bits or wider" (10_state.md R26, 43_field_decoder.md R120).
The model's port is 64 bits wide; the packet is right-aligned in it (20_memory.md R32; log 6). -/
abbrev DecPacket := BitVec 64

end Sys2Proof
end

