-- ==== Sys2Proof/Syntax.lean ====
section
/-! DEFINITION. What can be presented to nexus433-core: the operations `Instr`, one constructor per row of
spec/opcode_table.json, the raw words they arrive as (`Request`), and the names they are made of. -/

namespace Sys2Proof

/-- The level of the line after an edge (30_encoding.md R47). -/
inductive Level where
  | low
  | high
  deriving DecidableEq, Repr

/-- The eight values of the 3-bit register `state` (30_encoding.md R48): the four reachable states, `Idle`, and the
reserved codes 5 to 7. -/
inductive DecState where
  | searchSyncHigh
  | searchSyncLow
  | readBitStart
  | readBitEnd
  | idle
  | rsvd5
  | rsvd6
  | rsvd7
  deriving DecidableEq, Repr

/-- The sixteen rows of the dispatch map (30_encoding.md R52). -/
inductive Row where
  | guard
  | sshLFit
  | sshLMiss
  | sshH
  | sslHFit
  | sslHMiss
  | sslL
  | rbsL
  | rbsH
  | rbeHZero
  | rbeHOne
  | rbeHMiss
  | rbeL
  | idleAny
  | rsvd5
  | rsvd67
  deriving DecidableEq, Repr

/-- The seven named fields of the packet word (30_encoding.md R53, 43_field_decoder.md R131). -/
inductive PacketField where
  | id
  | battery
  | unused26
  | channel
  | tempRaw
  | pad
  | humidity
  deriving DecidableEq, Repr

/-- The operations. Beside the four commands stand the sixteen dispatch rows `EDGE` is made of, each with the dispatch
word that selects it and the timestamp of its edge, and the field decoder `DECODE` with the seven fields it is made of
(log 4, log 5). -/
inductive Instr where
  /-- `NOP`, 42_control_ops.md R112. -/
  | nop
  /-- `EDGE ts level`, 41_assembler.md R85. -/
  | edge (ts : Timestamp) (level : Level)
  /-- `REARM`, 42_control_ops.md R110. -/
  | rearm
  /-- `RESET`, 42_control_ops.md R111. -/
  | reset
  /-- Row `GUARD`, 41_assembler.md R86. -/
  | guard (dw : DispatchWord) (ts : Timestamp)
  /-- Row `SSH_L_FIT`, 41_assembler.md R88. -/
  | sshLFit (dw : DispatchWord) (ts : Timestamp)
  /-- Row `SSH_L_MISS`, 41_assembler.md R89. -/
  | sshLMiss (dw : DispatchWord) (ts : Timestamp)
  /-- Row `SSH_H`, 41_assembler.md R90. -/
  | sshH (dw : DispatchWord) (ts : Timestamp)
  /-- Row `SSL_H_FIT`, 41_assembler.md R91. -/
  | sslHFit (dw : DispatchWord) (ts : Timestamp)
  /-- Row `SSL_H_MISS`, 41_assembler.md R92. -/
  | sslHMiss (dw : DispatchWord) (ts : Timestamp)
  /-- Row `SSL_L`, 41_assembler.md R93. -/
  | sslL (dw : DispatchWord) (ts : Timestamp)
  /-- Row `RBS_L`, 41_assembler.md R94. -/
  | rbsL (dw : DispatchWord) (ts : Timestamp)
  /-- Row `RBS_H`, 41_assembler.md R95. -/
  | rbsH (dw : DispatchWord) (ts : Timestamp)
  /-- Row `RBE_H_ZERO`, 41_assembler.md R96. -/
  | rbeHZero (dw : DispatchWord) (ts : Timestamp)
  /-- Row `RBE_H_ONE`, 41_assembler.md R97. -/
  | rbeHOne (dw : DispatchWord) (ts : Timestamp)
  /-- Row `RBE_H_MISS`, 41_assembler.md R99. -/
  | rbeHMiss (dw : DispatchWord) (ts : Timestamp)
  /-- Row `RBE_L`, 41_assembler.md R100. -/
  | rbeL (dw : DispatchWord) (ts : Timestamp)
  /-- Row `IDLE_ANY`, 41_assembler.md R104. -/
  | idleAny (dw : DispatchWord) (ts : Timestamp)
  /-- Row `RSVD_5`, 41_assembler.md R104. -/
  | rsvd5 (dw : DispatchWord) (ts : Timestamp)
  /-- Row `RSVD_67`, 41_assembler.md R104. -/
  | rsvd67 (dw : DispatchWord) (ts : Timestamp)
  /-- `DECODE packet now`, 43_field_decoder.md R120. -/
  | decode (packet : DecPacket) (now : Timestamp)
  /-- Field `FIELD_ID`, 43_field_decoder.md R121. -/
  | fieldId (packet : DecPacket)
  /-- Field `FIELD_BATTERY`, 43_field_decoder.md R122. -/
  | fieldBattery (packet : DecPacket)
  /-- Field `FIELD_UNUSED26`, 43_field_decoder.md R128. -/
  | fieldUnused26 (packet : DecPacket)
  /-- Field `FIELD_CHANNEL`, 43_field_decoder.md R123. -/
  | fieldChannel (packet : DecPacket)
  /-- Field `FIELD_TEMP`, 43_field_decoder.md R124. -/
  | fieldTemp (packet : DecPacket)
  /-- Field `FIELD_PAD`, 43_field_decoder.md R128. -/
  | fieldPad (packet : DecPacket)
  /-- Field `FIELD_HUMIDITY`, 43_field_decoder.md R126. -/
  | fieldHumidity (packet : DecPacket)
  deriving DecidableEq, Repr

/-- What the environment presents, as raw words. Which port and which named operation a word is for is not in its bits
(the formats of 30_encoding.md R45 overlap), so the constructor says it (log 3). -/
inductive Request where
  /-- A command word on the port `cw` (10_state.md R26). -/
  | cmd (cw : CmdWord)
  /-- A dispatch word given to the dispatch map by itself, with the timestamp of its edge (log 4). -/
  | row (dw : DispatchWord) (ts : Timestamp)
  /-- The operands of `DECODE` on the ports `dec_packet` and `dec_now` (10_state.md R26). -/
  | decode (packet : DecPacket) (now : Timestamp)
  /-- A word given to one named field descriptor (43_field_decoder.md R131; log 5). -/
  | field (f : PacketField) (packet : DecPacket)
  deriving DecidableEq, Repr

end Sys2Proof
end

