-- ==== Sys2Proof/Config.lean ====
section
/-! DEFINITION. What an implementation fixes: the parameters of 00_scope.md section 4 as one structure, the conditions
the spec puts on them, and the values the spec leaves free, the floating-point temperature (43_field_decoder.md R132)
and a read of the accumulator outside the hand-off protocol (70_reset_and_hazards.md R158). The shared operations take a `Config`, so that a claim can be made for every one of them; the values this model
runs with are `Machine.config` (Sys2Proof/Machine/Params.lean). -/

namespace Sys2Proof

/-- The named parameters of 00_scope.md section 4 (but the widths, which Word.lean fixes; log 1). -/
structure Config where
  /-- `P_SYNC_HIGH`, R4. -/
  pSyncHigh : Nat
  /-- `P_SYNC_LOW`, R4. -/
  pSyncLow : Nat
  /-- `P_ONE`, R4. -/
  pOne : Nat
  /-- `P_ZERO`, R4. -/
  pZero : Nat
  /-- `TOL`, R4. -/
  tol : Nat
  /-- `EN_RESET`, decision D7. -/
  enReset : Bool
  /-- `LAST_TS_RESET`, decision D7. -/
  lastTsReset : Timestamp
  /-- `S_DONE`, decision D9. -/
  sDone : DecState
  /-- `CH_LSB`, decision D17. -/
  chLsb : Nat
  /-- `TEMP_SIGNED`, decision D18. -/
  tempSigned : Bool
  deriving DecidableEq, Repr

/-- What a model must require of the parameters: 00_scope.md R4 for the profiles, decisions D9 and D17 for the two that
have a set of legal values. -/
def Config.valid (c : Config) : Bool :=
  decide (c.tol ≤ c.pSyncHigh) && decide (c.tol ≤ c.pSyncLow) && decide (c.tol ≤ c.pOne) && decide (c.tol ≤ c.pZero)
    && decide (c.pSyncLow + c.tol < 2 ^ 32)
    && (c.sDone == .readBitStart || c.sDone == .readBitEnd)
    && (c.chLsb == 24 || c.chLsb == 25)

/-- The number of bits of the floating-point format of the source's temperature, which the source does not name
(43_field_decoder.md R132; log 11). FREE VALUE: no body. -/
opaque Config.floatWidth : Nat

/-- The floating-point temperature of a raw value: R132 assumes only that it depends on `temp_raw` alone (log 11).
FREE VALUE: no body. -/
opaque Config.tempFloat : BitVec 12 → BitVec Config.floatWidth

/-- What a reader gets from the accumulator while `enable = 1`, given the number of the read and what the accumulator
holds: "any value", since the read races with the handler (70_reset_and_hazards.md R158, 93_implementation_defined.md
U19; log 26). FREE VALUE: no body. -/
opaque Config.racedRead : Nat → Acc → Acc

end Sys2Proof
end

