-- ==== Sys2Proof/Machine/Formats.lean ====
section
/-! DEFINITION. The bit formats of 30_encoding.md: level and state codes, the command word, the dispatch word with the
match and mask of each row, and the layout of the packet word. -/

namespace Sys2Proof.Machine

/-- `HIGH = 1`, `LOW = 0` (R47). -/
def levelCode : Level → BitVec 1
  | .low => 0
  | .high => 1

/-- The level of a code (R47). -/
def levelOf (b : BitVec 1) : Level :=
  if b = 1 then .high else .low

/-- The 3-bit code of a state (R48). -/
def stateCode : DecState → BitVec 3
  | .searchSyncHigh => 0
  | .searchSyncLow => 1
  | .readBitStart => 2
  | .readBitEnd => 3
  | .idle => 4
  | .rsvd5 => 5
  | .rsvd6 => 6
  | .rsvd7 => 7

/-- The state of a code (R48). -/
def stateOf (b : BitVec 3) : DecState :=
  match b.toNat with
  | 0 => .searchSyncHigh
  | 1 => .searchSyncLow
  | 2 => .readBitStart
  | 3 => .readBitEnd
  | 4 => .idle
  | 5 => .rsvd5
  | 6 => .rsvd6
  | _ => .rsvd7

/-- The field `cmd` of a command word, bits 34:33 (R46). -/
def cmdCode (w : CmdWord) : BitVec 2 := w.extractLsb' 33 2

/-- The field `level` of a command word, bit 32 (R46). -/
def cmdLevel (w : CmdWord) : Level := levelOf (w.extractLsb' 32 1)

/-- The field `ts` of a command word, bits 31:0 (R46). -/
def cmdTs (w : CmdWord) : Timestamp := w.extractLsb' 0 32

/-- The command word of the three fields (R46). -/
def cmdWord (code : BitVec 2) (level : BitVec 1) (ts : Timestamp) : CmdWord :=
  (code ++ level) ++ ts

/-- The field `enable` of a dispatch word, bit 8 (R51). -/
def dispatchEnable (dw : DispatchWord) : Bool := dw.getLsbD 8

/-- The field `state` of a dispatch word, bits 7:5 (R51). -/
def dispatchState (dw : DispatchWord) : DecState := stateOf (dw.extractLsb' 5 3)

/-- The dispatch word of its fields, most significant first (R51). -/
def dispatchPack (enable : Bool) (st : DecState) (level : Level) (high low one zero : Bool) : DispatchWord :=
  ((BitVec.ofBool enable ++ stateCode st) ++ levelCode level)
    ++ ((BitVec.ofBool high ++ BitVec.ofBool low) ++ (BitVec.ofBool one ++ BitVec.ofBool zero))

/-- The column `match` of the dispatch map (R52). -/
def rowMatch : Row → DispatchWord
  | .guard => 0x000
  | .sshLFit => 0x108
  | .sshLMiss => 0x100
  | .sshH => 0x110
  | .sslHFit => 0x134
  | .sslHMiss => 0x130
  | .sslL => 0x120
  | .rbsL => 0x140
  | .rbsH => 0x150
  | .rbeHZero => 0x171
  | .rbeHOne => 0x172
  | .rbeHMiss => 0x170
  | .rbeL => 0x160
  | .idleAny => 0x180
  | .rsvd5 => 0x1A0
  | .rsvd67 => 0x1C0

/-- The column `mask` of the dispatch map (R52). -/
def rowMask : Row → DispatchWord
  | .guard => 0x100
  | .sshLFit => 0x1F8
  | .sshLMiss => 0x1F8
  | .sshH => 0x1F0
  | .sslHFit => 0x1F4
  | .sslHMiss => 0x1F4
  | .sslL => 0x1F0
  | .rbsL => 0x1F0
  | .rbsH => 0x1F0
  | .rbeHZero => 0x1F1
  | .rbeHOne => 0x1F3
  | .rbeHMiss => 0x1F3
  | .rbeL => 0x1F0
  | .idleAny => 0x1E0
  | .rsvd5 => 0x1E0
  | .rsvd67 => 0x1C0

/-- The rows in the table's order (R52). -/
def rows : List Row :=
  [.guard, .sshLFit, .sshLMiss, .sshH, .sslHFit, .sslHMiss, .sslL, .rbsL, .rbsH, .rbeHZero, .rbeHOne, .rbeHMiss,
    .rbeL, .idleAny, .rsvd5, .rsvd67]

/-- "A row matches when `(dispatch & mask) = match`" (R52). -/
def rowMatches (r : Row) (dw : DispatchWord) : Bool :=
  dw &&& rowMask r == rowMatch r

/-- The row a dispatch word selects (R52): the first that matches. Every word is matched by exactly one row, so the
order of testing does not matter and the last case is never missed. -/
def selectRow (dw : DispatchWord) : Row :=
  (rows.find? fun r => rowMatches r dw).getD .rsvd67

/-- The width of a packet field (R53). -/
@[reducible] def fieldWidth : PacketField → Nat
  | .id => 8
  | .battery => 1
  | .unused26 => 1
  | .channel => 2
  | .tempRaw => 12
  | .pad => 4
  | .humidity => 8

/-- The offset of a packet field (R53). `CH_LSB` places the channel; the one unused bit is what the channel leaves of
bits 26:24 (90_conflicts.md C1). -/
def fieldShift (c : Config) : PacketField → Nat
  | .id => 28
  | .battery => 27
  | .unused26 => if c.chLsb = 24 then 26 else 24
  | .channel => c.chLsb
  | .tempRaw => 12
  | .pad => 8
  | .humidity => 0

end Sys2Proof.Machine
end

