-- ==== Sys2Proof/WellFormed.lean ====
section
/-! DEFINITION. Which instructions have an encoding: a dispatch row must carry a dispatch word of its own pattern
(30_encoding.md R52). Commands, `DECODE` and the fields admit every operand (R57). -/

namespace Sys2Proof

/-- The check on an instruction's operands, constructor by constructor. -/
def Instr.wellFormed : Instr → Bool
  | .nop => true
  | .edge _ _ => true
  | .rearm => true
  | .reset => true
  | .guard dw _ => Machine.rowMatches .guard dw
  | .sshLFit dw _ => Machine.rowMatches .sshLFit dw
  | .sshLMiss dw _ => Machine.rowMatches .sshLMiss dw
  | .sshH dw _ => Machine.rowMatches .sshH dw
  | .sslHFit dw _ => Machine.rowMatches .sslHFit dw
  | .sslHMiss dw _ => Machine.rowMatches .sslHMiss dw
  | .sslL dw _ => Machine.rowMatches .sslL dw
  | .rbsL dw _ => Machine.rowMatches .rbsL dw
  | .rbsH dw _ => Machine.rowMatches .rbsH dw
  | .rbeHZero dw _ => Machine.rowMatches .rbeHZero dw
  | .rbeHOne dw _ => Machine.rowMatches .rbeHOne dw
  | .rbeHMiss dw _ => Machine.rowMatches .rbeHMiss dw
  | .rbeL dw _ => Machine.rowMatches .rbeL dw
  | .idleAny dw _ => Machine.rowMatches .idleAny dw
  | .rsvd5 dw _ => Machine.rowMatches .rsvd5 dw
  | .rsvd67 dw _ => Machine.rowMatches .rsvd67 dw
  | .decode _ _ => true
  | .fieldId _ => true
  | .fieldBattery _ => true
  | .fieldUnused26 _ => true
  | .fieldChannel _ => true
  | .fieldTemp _ => true
  | .fieldPad _ => true
  | .fieldHumidity _ => true

end Sys2Proof
end

