-- ==== Sys2Proof/Decode.lean ====
section
/-! DEFINITION. Decoding and encoding. The decoder is total: the spec has no illegal command, dispatch or packet word
(30_encoding.md R57), so only a table word too long for its format is refused, by `decodeTableWord`. -/

namespace Sys2Proof

/-- A command word's operation (30_encoding.md R46): `00` NOP, `01` EDGE, `10` REARM, `11` RESET; `level` and `ts` are
used by EDGE only. -/
def decodeCmd (w : CmdWord) : Instr :=
  match (Machine.cmdCode w).toNat with
  | 0 => .nop
  | 1 => .edge (Machine.cmdTs w) (Machine.cmdLevel w)
  | 2 => .rearm
  | _ => .reset

/-- The instruction of a dispatch row. -/
def rowInstr (dw : DispatchWord) (ts : Timestamp) : Row → Instr
  | .guard => .guard dw ts
  | .sshLFit => .sshLFit dw ts
  | .sshLMiss => .sshLMiss dw ts
  | .sshH => .sshH dw ts
  | .sslHFit => .sslHFit dw ts
  | .sslHMiss => .sslHMiss dw ts
  | .sslL => .sslL dw ts
  | .rbsL => .rbsL dw ts
  | .rbsH => .rbsH dw ts
  | .rbeHZero => .rbeHZero dw ts
  | .rbeHOne => .rbeHOne dw ts
  | .rbeHMiss => .rbeHMiss dw ts
  | .rbeL => .rbeL dw ts
  | .idleAny => .idleAny dw ts
  | .rsvd5 => .rsvd5 dw ts
  | .rsvd67 => .rsvd67 dw ts

/-- The instruction of a packet field. -/
def fieldInstr (packet : DecPacket) : PacketField → Instr
  | .id => .fieldId packet
  | .battery => .fieldBattery packet
  | .unused26 => .fieldUnused26 packet
  | .channel => .fieldChannel packet
  | .tempRaw => .fieldTemp packet
  | .pad => .fieldPad packet
  | .humidity => .fieldHumidity packet

/-- The decoder: a dispatch word goes to the one row it selects (30_encoding.md R52). -/
def decode : Request → Instr
  | .cmd w => decodeCmd w
  | .row dw ts => rowInstr dw ts (Machine.selectRow dw)
  | .decode packet now => .decode packet now
  | .field f packet => fieldInstr packet f

/-- The encoder, in the canonical encoding: ignored fields zero (30_encoding.md R46). -/
def encode : Instr → Request
  | .nop => .cmd (Machine.cmdWord 0 0 0)
  | .edge ts level => .cmd (Machine.cmdWord 1 (Machine.levelCode level) ts)
  | .rearm => .cmd (Machine.cmdWord 2 0 0)
  | .reset => .cmd (Machine.cmdWord 3 0 0)
  | .guard dw ts => .row dw ts
  | .sshLFit dw ts => .row dw ts
  | .sshLMiss dw ts => .row dw ts
  | .sshH dw ts => .row dw ts
  | .sslHFit dw ts => .row dw ts
  | .sslHMiss dw ts => .row dw ts
  | .sslL dw ts => .row dw ts
  | .rbsL dw ts => .row dw ts
  | .rbsH dw ts => .row dw ts
  | .rbeHZero dw ts => .row dw ts
  | .rbeHOne dw ts => .row dw ts
  | .rbeHMiss dw ts => .row dw ts
  | .rbeL dw ts => .row dw ts
  | .idleAny dw ts => .row dw ts
  | .rsvd5 dw ts => .row dw ts
  | .rsvd67 dw ts => .row dw ts
  | .decode packet now => .decode packet now
  | .fieldId packet => .field .id packet
  | .fieldBattery packet => .field .battery packet
  | .fieldUnused26 packet => .field .unused26 packet
  | .fieldChannel packet => .field .channel packet
  | .fieldTemp packet => .field .tempRaw packet
  | .fieldPad packet => .field .pad packet
  | .fieldHumidity packet => .field .humidity packet

/-- The request a word of the opcode table stands for. The table's rows are told apart by their number of bits: at most
16 for a 9-bit dispatch word (operand `ts` zero), else a 35-bit command word, or a packet word where the word has 36
bits or bit 35 is set (operand `now` zero). The packet rows have no fixed bit, so a packet word below `2^35` given in
40 bits cannot be told from a command word and is read as one (log 7). -/
def tableRequest (nbits w : Nat) : Option Request :=
  if nbits ≤ 16 then
    if w < 2 ^ 9 then some (.row (BitVec.ofNat 9 w) 0) else none
  else if w < 2 ^ 35 ∧ nbits ≠ 36 then some (.cmd (BitVec.ofNat 35 w))
  else if w < 2 ^ 36 then some (.decode (BitVec.ofNat 64 w) 0)
  else none

/-- The instruction the decoder reads from a word of the opcode table; none for a word longer than its format. -/
def decodeTableWord (nbits w : Nat) : Option Instr :=
  (tableRequest nbits w).map decode

end Sys2Proof
end

