-- ==== Sys2Proof/Machine/Params.lean ====
section
/-! DEFINITION. The values of the parameters this model runs with: the table of 00_scope.md section 4. -/

namespace Sys2Proof.Machine

/-- The default of every parameter (00_scope.md section 4; the profile literals are adopted as written, decision D27;
log 2). -/
def config : Config where
  pSyncHigh := 500
  pSyncLow := 4000
  pOne := 2000
  pZero := 1000
  tol := 300
  enReset := true
  lastTsReset := 0
  sDone := .readBitStart
  chLsb := 24
  tempSigned := false

/-- `NBITS`, the length of a packet (00_scope.md R5). -/
def nbits : Nat := 36

end Sys2Proof.Machine
end

