-- ==== Sys2Proof/Machine/State.lean ====
section
/-! DEFINITION. The state of nexus433-core as plain data: the five registers of 10_state.md R10, and two fields of the
model's own, what the environment has presented and not yet seen performed, and what the field decoder last put out.
There is no memory, no program counter and no other register (10_state.md R17, R18, R20). -/

namespace Sys2Proof.Machine

/-- The outputs of the field decoder, the record `Reading` (30_encoding.md R55, 10_state.md R26). -/
structure Reading where
  /-- `timestamp`, `TW` bits (43_field_decoder.md R127). -/
  timestamp : Timestamp
  /-- `id`, 8 bits (R121). -/
  id : BitVec 8
  /-- `battery`, 1 bit, true iff the bit is 1 (R122). -/
  battery : Bool
  /-- `channel`, 2 bits (R123). -/
  channel : BitVec 2
  /-- `temp_raw`, 12 bits (R124). -/
  tempRaw : BitVec 12
  /-- `humidity`, 8 bits (R126). -/
  humidity : BitVec 8
  deriving DecidableEq, Repr

/-- The state. -/
structure State where
  /-- `state`, 3 bits (10_state.md R11). -/
  state : DecState
  /-- `acc`, 36 bits (10_state.md R12). -/
  acc : Acc
  /-- `bit_count`, 6 bits (10_state.md R13). -/
  bitCount : Count
  /-- `last_ts`, `TW` bits (10_state.md R14). -/
  lastTs : Timestamp
  /-- `enable`, 1 bit (10_state.md R15). -/
  enable : Bool
  /-- The model's own: the operations the environment has presented and the block has not yet performed, oldest first
  (20_memory.md R34: one atomic operation at a time; log 3). No register of the block. -/
  inputs : List Request
  /-- The model's own: what the decoder's output ports last showed (10_state.md R22: an output value, no state of the
  block; log 5). -/
  reading : Reading
  deriving DecidableEq, Repr

/-- Why the machine stops. -/
inductive Fault where
  /-- `Overrun`: an append at `bit_count >= 36` (41_assembler.md R103, 60_exceptions.md R138). Raised by `append`, so by
  `EDGE`, `RBE_H_ZERO` and `RBE_H_ONE`. Safe: the model stops where the hardware does something unknown. -/
  | overrun
  deriving DecidableEq, Repr

/-- Why an operation has no meaning. No operation of this model is refused. -/
inductive Refusal where
  /-- An instruction without a meaning. Raised by no arm of `exec`. Safe: the model stops. -/
  | notModelled (mnemonic : String)
  deriving DecidableEq, Repr

/-- What one operation ends in. -/
abbrev Result := Host.Outcome State Fault Refusal

/-- The decoder's outputs before any `DECODE`: those of the word 0 at time 0 (DESIGN CHOICE, log 5). -/
def Reading.zero : Reading where
  timestamp := 0
  id := 0
  battery := false
  channel := 0
  tempRaw := 0
  humidity := 0

/-- The state right after `RESET` (10_state.md R24), with nothing presented. -/
def State.reset : State where
  state := .searchSyncHigh
  acc := 0
  bitCount := 0
  lastTs := config.lastTsReset
  enable := config.enReset
  inputs := []
  reading := Reading.zero

end Sys2Proof.Machine
end

