-- ==== Sys2Proof/Machine/Ops.lean ====
section
/-! DEFINITION. The named operations over the registers: one setter per field, the output ports, presenting an
operation, and the operations several instructions share: `reset_search`, the append with its completion and its
overrun, the reset, and the selection of a dispatch row. There is no exception entry and no return in this hardware
(60_exceptions.md R143, R144): `resetSearch` is all that a timing mismatch does. -/

namespace Sys2Proof.Machine

/-- `state <- v`. -/
def State.setState (s : State) (v : DecState) : State := { s with state := v }

/-- `acc <- v`. -/
def State.setAcc (s : State) (v : Acc) : State := { s with acc := v }

/-- `bit_count <- v`. -/
def State.setBitCount (s : State) (v : Count) : State := { s with bitCount := v }

/-- `last_ts <- v`. -/
def State.setLastTs (s : State) (v : Timestamp) : State := { s with lastTs := v }

/-- `enable <- v`. -/
def State.setEnable (s : State) (v : Bool) : State := { s with enable := v }

/-- The model's queue of presented operations becomes `v`. -/
def State.setInputs (s : State) (v : List Request) : State := { s with inputs := v }

/-- The decoder's outputs become `v`. -/
def State.setReading (s : State) (v : Reading) : State := { s with reading := v }

/-- The complete architectural state `(state, acc, bit_count, last_ts, enable)` (10_state.md R10). -/
def State.tuple (s : State) : DecState × Acc × Count × Timestamp × Bool :=
  (s.state, s.acc, s.bitCount, s.lastTs, s.enable)

/-- The output `ready = not enable` (10_state.md R26, 60_exceptions.md R141). -/
def State.ready (s : State) : Bool := !s.enable

/-- The output `enable_o` (10_state.md R26). -/
def State.enableO (s : State) : Bool := s.enable

/-- The output `packet_o = acc` (10_state.md R26). -/
def State.packetO (s : State) : Acc := s.acc

/-- The test output `state_o`, the 3-bit code (10_state.md R26, 30_encoding.md R48). -/
def State.stateO (s : State) : BitVec 3 := stateCode s.state

/-- The test output `bit_count_o` (10_state.md R26). -/
def State.bitCountO (s : State) : Count := s.bitCount

/-- The test output `last_ts_o` (10_state.md R26). -/
def State.lastTsO (s : State) : Timestamp := s.lastTs

/-- The environment presents operations, to be performed one after another behind those already waiting. -/
def State.present (s : State) (rs : List Request) : State := s.setInputs (s.inputs ++ rs)

/-- Operations on separate request lines at the same instant, in the order they are performed: `RESET`, then `EDGE`, then
`REARM` (42_control_ops.md R113, decision D15). -/
def sameInstant (reset : Bool) (edge : Option (Timestamp × Level)) (rearm : Bool) : List Instr :=
  (if reset then [.reset] else [])
    ++ (match edge with
        | some e => [.edge e.1 e.2]
        | none => [])
    ++ (if rearm then [.rearm] else [])

/-- `reset_search`: `state <- SearchSyncHigh` and nothing else (41_assembler.md R98). -/
def resetSearch (s : State) : State := s.setState .searchSyncHigh

/-- Every register at its reset value (42_control_ops.md R111, 10_state.md R24). -/
def resetRegisters (c : Config) (s : State) : State :=
  ((((s.setState .searchSyncHigh).setAcc 0).setBitCount 0).setLastTs c.lastTsReset).setEnable c.enReset

/-- The synchronisation is acquired: `acc <- 0`, `bit_count <- 0`, `state <- ReadBitStart` (41_assembler.md R91). -/
def acquireSync (s : State) : State :=
  ((s.setAcc 0).setBitCount 0).setState .readBitStart

/-- The bit position of an append, `35 - bit_count`, for `bit_count` in `0..35` (30_encoding.md R56 b). -/
def bitPosition (k : Count) : Nat := 35 - k.toNat

/-- `acc` with bit `b` set at the position of the counter (41_assembler.md R101). -/
def accWithBit (b : Bool) (s : State) : Acc :=
  s.acc ||| ((BitVec.ofBool b).setWidth 36 <<< bitPosition s.bitCount)

/-- `append(b)` (41_assembler.md R101), with the completion at the 36th bit (R102) and the fault `Overrun` beyond it
(R103). -/
def append (c : Config) (b : Bool) (s : State) : Result :=
  if s.bitCount.toNat < nbits then
    if s.bitCount.toNat + 1 = nbits then
      .next ((((s.setAcc (accWithBit b s)).setBitCount (s.bitCount + 1)).setEnable false).setState c.sDone)
    else
      .next (((s.setAcc (accWithBit b s)).setBitCount (s.bitCount + 1)).setState .readBitStart)
  else .fault .overrun

/-- Does the row `r` match the dispatch word, and are the word's `enable` and `state` those of the registers, of which a
dispatch word is made (30_encoding.md R51, R52)? -/
def selects (r : Row) (dw : DispatchWord) (s : State) : Bool :=
  rowMatches r dw && dispatchEnable dw == s.enable && dispatchState dw == s.state

/-- A row presented with its dispatch word: performed if the word selects it in this state, else nothing is written
(DESIGN CHOICE, log 4). -/
def whenSelected (r : Row) (dw : DispatchWord) (s : State) (performed : Result) : Result :=
  if selects r dw s then performed else .next s

end Sys2Proof.Machine
end

