-- ==== Sys2Proof/Machine/Operands.lean ====
section
/-! DEFINITION. The operands that are computed rather than carried (30_encoding.md R56): the duration, the fields of a
packet word, and the temperature. -/

namespace Sys2Proof.Machine

/-- `ts -_TW last_ts`, unsigned, modulo `2^TW`, at every width (40_classifier.md R70). -/
def duration {tw : Nat} (ts last : BitVec tw) : BitVec tw := ts - last

/-- A field of a packet word, "36 bits or wider": `(packet >> shift) & (2^width - 1)` (30_encoding.md R56 c). -/
def field {n : Nat} (c : Config) (f : PacketField) (packet : BitVec n) : BitVec (fieldWidth f) :=
  packet.extractLsb' (fieldShift c f) (fieldWidth f)

/-- The boolean of a one-bit field: true exactly when the bit is 1 (43_field_decoder.md R122, decision D28). -/
def flagOf (b : BitVec 1) : Bool := b == 1

/-- What the field decoder puts out for a packet word and the time of the decode (43_field_decoder.md R120). -/
def readingOf {n : Nat} (c : Config) (packet : BitVec n) (now : Timestamp) : Reading where
  timestamp := now
  id := field c .id packet
  battery := flagOf (field c .battery packet)
  channel := field c .channel packet
  tempRaw := field c .tempRaw packet
  humidity := field c .humidity packet

/-- The temperature in tenths of a degree: `temp_raw` as an unsigned integer, or as two's complement under `TEMP_SIGNED`
(43_field_decoder.md R124). -/
def tempTenths (c : Config) (raw : BitVec 12) : Int :=
  if c.tempSigned then raw.toInt else raw.toNat

/-- The exact temperature `temp_raw / 10` (43_field_decoder.md R125). -/
def Reading.temperature (c : Config) (r : Reading) : Rat :=
  (tempTenths c r.tempRaw : Rat) / 10

/-- The integer part of the decimal presentation, `temp_raw div 10` (43_field_decoder.md R125). -/
def Reading.tempWhole (r : Reading) : Nat := r.tempRaw.toNat / 10

/-- The tenth of the decimal presentation, `temp_raw mod 10` (43_field_decoder.md R125). -/
def Reading.tempTenth (r : Reading) : Nat := r.tempRaw.toNat % 10

/-- The source's "float", a free function of `temp_raw` (43_field_decoder.md R132; log 11). -/
def Reading.temperatureFloat (r : Reading) : BitVec Config.floatWidth := Config.tempFloat r.tempRaw

/-- `pack` of 43_field_decoder.md R130: the packet word of field values, not part of the hardware. -/
def pack (id : BitVec 8) (battery u : BitVec 1) (channel : BitVec 2) (tempRaw : BitVec 12) (pad : BitVec 4)
    (humidity : BitVec 8) : BitVec 36 :=
  (id.setWidth 36 <<< 28) ||| (battery.setWidth 36 <<< 27) ||| (u.setWidth 36 <<< 26) ||| (channel.setWidth 36 <<< 24)
    ||| (tempRaw.setWidth 36 <<< 12) ||| (pad.setWidth 36 <<< 8) ||| humidity.setWidth 36

end Sys2Proof.Machine
end

