-- ==== Sys2Proof/Machine/Flags.lean ====
section
/-! DEFINITION. The classifier (40_classifier.md): the fit test, the four fit bits, which are combinational values and no
state (10_state.md R19), and the dispatch word they enter. -/

namespace Sys2Proof.Machine

/-- `fits(d, P)`: `P - TOL < d < P + TOL`, both strict, compared as integers (40_classifier.md R71, decision D24). -/
def fits (c : Config) (p d : Nat) : Bool :=
  decide ((p : Int) - c.tol < d) && decide ((d : Int) < p + c.tol)

/-- `fit_sync_high` (40_classifier.md R73). -/
def fitSyncHigh {tw : Nat} (c : Config) (d : BitVec tw) : Bool := fits c c.pSyncHigh d.toNat

/-- `fit_sync_low` (40_classifier.md R73). -/
def fitSyncLow {tw : Nat} (c : Config) (d : BitVec tw) : Bool := fits c c.pSyncLow d.toNat

/-- `fit_one` (40_classifier.md R73). -/
def fitOne {tw : Nat} (c : Config) (d : BitVec tw) : Bool := fits c c.pOne d.toNat

/-- `fit_zero` (40_classifier.md R73). -/
def fitZero {tw : Nat} (c : Config) (d : BitVec tw) : Bool := fits c c.pZero d.toNat

/-- The fit vector: bit 3 sync high, bit 2 sync low, bit 1 one, bit 0 zero (30_encoding.md R50). -/
def fitVector {tw : Nat} (c : Config) (d : BitVec tw) : BitVec 4 :=
  (BitVec.ofBool (fitSyncHigh c d) ++ BitVec.ofBool (fitSyncLow c d))
    ++ (BitVec.ofBool (fitOne c d) ++ BitVec.ofBool (fitZero c d))

/-- The dispatch word of an `EDGE`, built from values read before the operation writes anything (30_encoding.md R51,
41_assembler.md R85 steps 2, 4, 5). -/
def dispatchWord (c : Config) (ts : Timestamp) (level : Level) (s : State) : DispatchWord :=
  let d := duration ts s.lastTs
  dispatchPack s.enable s.state level (fitSyncHigh c d) (fitSyncLow c d) (fitOne c d) (fitZero c d)

end Sys2Proof.Machine
end

