-- ==== Sys2Proof/Machine/Assembler.lean ====
section
/-! DEFINITION. The operation `EDGE` and the sixteen rows of the dispatch map (41_assembler.md). Each row's rule is one
definition `row…`, performed by the `EDGE` whose dispatch word selects it; every row of an enabled block writes
`last_ts <- ts` (R87). The meaning `exec…` of a row presented by itself performs it under the condition that its dispatch
word selects it. All right-hand sides read the values from before the operation (00_scope.md section 5); none of a row
reads `last_ts`, so writing it first makes no difference. -/

namespace Sys2Proof.Machine

/-- Row `GUARD`: no register is written, `last_ts` included (R86). -/
def rowGuard (s : State) : Result := .next s

/-- Row `SSH_L_FIT`: `state <- SearchSyncLow` (R88). -/
def rowSshLFit (ts : Timestamp) (s : State) : Result :=
  .next ((s.setLastTs ts).setState .searchSyncLow)

/-- Row `SSH_L_MISS`: `reset_search` (R89). -/
def rowSshLMiss (ts : Timestamp) (s : State) : Result :=
  .next (resetSearch (s.setLastTs ts))

/-- Row `SSH_H`: an ignored edge moves `last_ts` only (R90). -/
def rowSshH (ts : Timestamp) (s : State) : Result :=
  .next (s.setLastTs ts)

/-- Row `SSL_H_FIT`: clears `acc` and `bit_count`, `state <- ReadBitStart` (R91). -/
def rowSslHFit (ts : Timestamp) (s : State) : Result :=
  .next (acquireSync (s.setLastTs ts))

/-- Row `SSL_H_MISS`: `reset_search` (R92). -/
def rowSslHMiss (ts : Timestamp) (s : State) : Result :=
  .next (resetSearch (s.setLastTs ts))

/-- Row `SSL_L`: an ignored edge moves `last_ts` only (R93). -/
def rowSslL (ts : Timestamp) (s : State) : Result :=
  .next (s.setLastTs ts)

/-- Row `RBS_L`: `state <- ReadBitEnd` (R94). -/
def rowRbsL (ts : Timestamp) (s : State) : Result :=
  .next ((s.setLastTs ts).setState .readBitEnd)

/-- Row `RBS_H`: an ignored edge moves `last_ts` only (R95). -/
def rowRbsH (ts : Timestamp) (s : State) : Result :=
  .next (s.setLastTs ts)

/-- Row `RBE_H_ZERO`: `append(0)` (R96). -/
def rowRbeHZero (c : Config) (ts : Timestamp) (s : State) : Result :=
  append c false (s.setLastTs ts)

/-- Row `RBE_H_ONE`: `append(1)` (R97). -/
def rowRbeHOne (c : Config) (ts : Timestamp) (s : State) : Result :=
  append c true (s.setLastTs ts)

/-- Row `RBE_H_MISS`: `reset_search`, the packet is aborted (R99). -/
def rowRbeHMiss (ts : Timestamp) (s : State) : Result :=
  .next (resetSearch (s.setLastTs ts))

/-- Row `RBE_L`: an ignored edge moves `last_ts` only (R100). -/
def rowRbeL (ts : Timestamp) (s : State) : Result :=
  .next (s.setLastTs ts)

/-- Row `IDLE_ANY`: `Idle` holds, `last_ts` moves (R104). -/
def rowIdleAny (ts : Timestamp) (s : State) : Result :=
  .next (s.setLastTs ts)

/-- Row `RSVD_5`: the reserved code 5 holds, `last_ts` moves (R104). -/
def rowRsvd5 (ts : Timestamp) (s : State) : Result :=
  .next (s.setLastTs ts)

/-- Row `RSVD_67`: the reserved codes 6 and 7 hold, `last_ts` moves (R104). -/
def rowRsvd67 (ts : Timestamp) (s : State) : Result :=
  .next (s.setLastTs ts)

/-- The rule of a row, performed (30_encoding.md R52, column "rule"). -/
def performRow (c : Config) (r : Row) (ts : Timestamp) (s : State) : Result :=
  match r with
  | .guard => rowGuard s
  | .sshLFit => rowSshLFit ts s
  | .sshLMiss => rowSshLMiss ts s
  | .sshH => rowSshH ts s
  | .sslHFit => rowSslHFit ts s
  | .sslHMiss => rowSslHMiss ts s
  | .sslL => rowSslL ts s
  | .rbsL => rowRbsL ts s
  | .rbsH => rowRbsH ts s
  | .rbeHZero => rowRbeHZero c ts s
  | .rbeHOne => rowRbeHOne c ts s
  | .rbeHMiss => rowRbeHMiss ts s
  | .rbeL => rowRbeL ts s
  | .idleAny => rowIdleAny ts s
  | .rsvd5 => rowRsvd5 ts s
  | .rsvd67 => rowRsvd67 ts s

/-- `EDGE(ts, level)`: the one row that the dispatch word selects is performed (R85). -/
def edge (c : Config) (ts : Timestamp) (level : Level) (s : State) : Result :=
  performRow c (selectRow (dispatchWord c ts level s)) ts s

/-- The meaning of `EDGE` (R85). -/
def execEdge (ts : Timestamp) (level : Level) (s : State) : Result := edge config ts level s

/-- The meaning of the row `GUARD` (R86). It writes nothing, so its timestamp is not used. -/
def execGuard (dw : DispatchWord) (_ts : Timestamp) (s : State) : Result :=
  whenSelected .guard dw s (rowGuard s)

/-- The meaning of the row `SSH_L_FIT` (R88). -/
def execSshLFit (dw : DispatchWord) (ts : Timestamp) (s : State) : Result :=
  whenSelected .sshLFit dw s (rowSshLFit ts s)

/-- The meaning of the row `SSH_L_MISS` (R89). -/
def execSshLMiss (dw : DispatchWord) (ts : Timestamp) (s : State) : Result :=
  whenSelected .sshLMiss dw s (rowSshLMiss ts s)

/-- The meaning of the row `SSH_H` (R90). -/
def execSshH (dw : DispatchWord) (ts : Timestamp) (s : State) : Result :=
  whenSelected .sshH dw s (rowSshH ts s)

/-- The meaning of the row `SSL_H_FIT` (R91). -/
def execSslHFit (dw : DispatchWord) (ts : Timestamp) (s : State) : Result :=
  whenSelected .sslHFit dw s (rowSslHFit ts s)

/-- The meaning of the row `SSL_H_MISS` (R92). -/
def execSslHMiss (dw : DispatchWord) (ts : Timestamp) (s : State) : Result :=
  whenSelected .sslHMiss dw s (rowSslHMiss ts s)

/-- The meaning of the row `SSL_L` (R93). -/
def execSslL (dw : DispatchWord) (ts : Timestamp) (s : State) : Result :=
  whenSelected .sslL dw s (rowSslL ts s)

/-- The meaning of the row `RBS_L` (R94). -/
def execRbsL (dw : DispatchWord) (ts : Timestamp) (s : State) : Result :=
  whenSelected .rbsL dw s (rowRbsL ts s)

/-- The meaning of the row `RBS_H` (R95). -/
def execRbsH (dw : DispatchWord) (ts : Timestamp) (s : State) : Result :=
  whenSelected .rbsH dw s (rowRbsH ts s)

/-- The meaning of the row `RBE_H_ZERO` (R96). -/
def execRbeHZero (dw : DispatchWord) (ts : Timestamp) (s : State) : Result :=
  whenSelected .rbeHZero dw s (rowRbeHZero config ts s)

/-- The meaning of the row `RBE_H_ONE` (R97). -/
def execRbeHOne (dw : DispatchWord) (ts : Timestamp) (s : State) : Result :=
  whenSelected .rbeHOne dw s (rowRbeHOne config ts s)

/-- The meaning of the row `RBE_H_MISS` (R99). -/
def execRbeHMiss (dw : DispatchWord) (ts : Timestamp) (s : State) : Result :=
  whenSelected .rbeHMiss dw s (rowRbeHMiss ts s)

/-- The meaning of the row `RBE_L` (R100). -/
def execRbeL (dw : DispatchWord) (ts : Timestamp) (s : State) : Result :=
  whenSelected .rbeL dw s (rowRbeL ts s)

/-- The meaning of the row `IDLE_ANY` (R104). -/
def execIdleAny (dw : DispatchWord) (ts : Timestamp) (s : State) : Result :=
  whenSelected .idleAny dw s (rowIdleAny ts s)

/-- The meaning of the row `RSVD_5` (R104). -/
def execRsvd5 (dw : DispatchWord) (ts : Timestamp) (s : State) : Result :=
  whenSelected .rsvd5 dw s (rowRsvd5 ts s)

/-- The meaning of the row `RSVD_67` (R104). -/
def execRsvd67 (dw : DispatchWord) (ts : Timestamp) (s : State) : Result :=
  whenSelected .rsvd67 dw s (rowRsvd67 ts s)

end Sys2Proof.Machine
end

