-- ==== Sys2Proof/Machine/Control.lean ====
section
/-! DEFINITION. The control operations `NOP`, `REARM`, `RESET` (42_control_ops.md). -/

namespace Sys2Proof.Machine

/-- `NOP`: nothing is written (R112). -/
def execNop (s : State) : Result := .next s

/-- `REARM`: `enable <- 1` and nothing else (R110). -/
def execRearm (s : State) : Result := .next (s.setEnable true)

/-- `RESET`: every register takes its reset value, whatever `enable` is (R111). -/
def execReset (s : State) : Result := .next (resetRegisters config s)

end Sys2Proof.Machine
end

