-- ==== Sys2Proof/Machine/FieldDecoder.lean ====
section
/-! DEFINITION. The fixed-offset field decoder (43_field_decoder.md): `DECODE` and the seven fields of its operand. None
reads or writes a register of the block; what they put out stands in the model's field `reading`. -/

namespace Sys2Proof.Machine

/-- `DECODE(packet, now)`: all outputs (R120). -/
def execDecode (packet : DecPacket) (now : Timestamp) (s : State) : Result :=
  .next (s.setReading (readingOf config packet now))

/-- Field `id` (R121). -/
def execFieldId (packet : DecPacket) (s : State) : Result :=
  .next (s.setReading { s.reading with id := field config .id packet })

/-- Field `battery` (R122). -/
def execFieldBattery (packet : DecPacket) (s : State) : Result :=
  .next (s.setReading { s.reading with battery := flagOf (field config .battery packet) })

/-- The unused bit 26: ignored, no output (R128). -/
def execFieldUnused26 (_packet : DecPacket) (s : State) : Result := .next s

/-- Field `channel` (R123). -/
def execFieldChannel (packet : DecPacket) (s : State) : Result :=
  .next (s.setReading { s.reading with channel := field config .channel packet })

/-- Field `temp_raw` (R124). -/
def execFieldTemp (packet : DecPacket) (s : State) : Result :=
  .next (s.setReading { s.reading with tempRaw := field config .tempRaw packet })

/-- The unused padding, bits 11 to 8: ignored, no output (R128). -/
def execFieldPad (_packet : DecPacket) (s : State) : Result := .next s

/-- Field `humidity` (R126). -/
def execFieldHumidity (packet : DecPacket) (s : State) : Result :=
  .next (s.setReading { s.reading with humidity := field config .humidity packet })

end Sys2Proof.Machine
end

