-- ==== Sys2Proof/Machine/Dispatch.lean ====
section
/-! DEFINITION. One arm per instruction, each one direct call of its meaning. -/

namespace Sys2Proof.Machine

def exec (i : Instr) (s : State) : Host.Outcome State Fault Refusal :=
  match i with
  | .nop => Sys2Proof.Machine.execNop s
  | .edge ts level => Sys2Proof.Machine.execEdge ts level s
  | .rearm => Sys2Proof.Machine.execRearm s
  | .reset => Sys2Proof.Machine.execReset s
  | .guard dw ts => Sys2Proof.Machine.execGuard dw ts s
  | .sshLFit dw ts => Sys2Proof.Machine.execSshLFit dw ts s
  | .sshLMiss dw ts => Sys2Proof.Machine.execSshLMiss dw ts s
  | .sshH dw ts => Sys2Proof.Machine.execSshH dw ts s
  | .sslHFit dw ts => Sys2Proof.Machine.execSslHFit dw ts s
  | .sslHMiss dw ts => Sys2Proof.Machine.execSslHMiss dw ts s
  | .sslL dw ts => Sys2Proof.Machine.execSslL dw ts s
  | .rbsL dw ts => Sys2Proof.Machine.execRbsL dw ts s
  | .rbsH dw ts => Sys2Proof.Machine.execRbsH dw ts s
  | .rbeHZero dw ts => Sys2Proof.Machine.execRbeHZero dw ts s
  | .rbeHOne dw ts => Sys2Proof.Machine.execRbeHOne dw ts s
  | .rbeHMiss dw ts => Sys2Proof.Machine.execRbeHMiss dw ts s
  | .rbeL dw ts => Sys2Proof.Machine.execRbeL dw ts s
  | .idleAny dw ts => Sys2Proof.Machine.execIdleAny dw ts s
  | .rsvd5 dw ts => Sys2Proof.Machine.execRsvd5 dw ts s
  | .rsvd67 dw ts => Sys2Proof.Machine.execRsvd67 dw ts s
  | .decode packet now => Sys2Proof.Machine.execDecode packet now s
  | .fieldId packet => Sys2Proof.Machine.execFieldId packet s
  | .fieldBattery packet => Sys2Proof.Machine.execFieldBattery packet s
  | .fieldUnused26 packet => Sys2Proof.Machine.execFieldUnused26 packet s
  | .fieldChannel packet => Sys2Proof.Machine.execFieldChannel packet s
  | .fieldTemp packet => Sys2Proof.Machine.execFieldTemp packet s
  | .fieldPad packet => Sys2Proof.Machine.execFieldPad packet s
  | .fieldHumidity packet => Sys2Proof.Machine.execFieldHumidity packet s

end Sys2Proof.Machine
end

