-- ==== Sys2Proof/Machine/Step.lean ====
section
/-! DEFINITION. One step: the oldest operation the environment has presented is taken and performed, atomically
(20_memory.md R34); with none presented nothing changes (41_assembler.md R105, 42_control_ops.md R112). -/

namespace Sys2Proof.Machine

/-- One step. -/
def step (s : State) : Host.Outcome State Fault Refusal :=
  match s.inputs with
  | [] => exec .nop s
  | r :: rest => exec (decode r) (s.setInputs rest)

/-- `s` with the word of the opcode table presented as the next operation, before those already waiting; a word that
`decodeTableWord` refuses places nothing. -/
def State.withFetchWord (s : State) (nbits w : Nat) : State :=
  match tableRequest nbits w with
  | some r => s.setInputs (r :: s.inputs)
  | none => s

end Sys2Proof.Machine
end

