-- ==== Sys2Proof/Machine/Environment.lean ====
section
/-! DEFINITION. The environment of the block, row by row of the table of 60_exceptions.md R152: what it may do
(`Act`), what it gets back (`Act.answer`), what it must do (`handlerDuty`, `readerDuty`), and what it keeps of its own
to know its duties (`Environment`, no state of the block; log 25). The block checks none of the duties: `Act.perform`
asks for none of them. -/

namespace Sys2Proof.Machine

/-- The six interactions of R152. -/
inductive Act where
  /-- Edge delivery: the edge of the true time `time`, in microseconds, delivered as `EDGE ts level`. -/
  | edge (ts : Timestamp) (level : Level) (time : Nat)
  /-- Poll: a read of `ready`. -/
  | poll
  /-- Take packet: a read of the bits of `packet_o` that are set in `part`, all of them or a part (20_memory.md R35). -/
  | take (part : Acc)
  /-- Decode: `DECODE packet now`. -/
  | decode (packet : DecPacket) (now : Timestamp)
  /-- Re-arm: `REARM`. -/
  | rearm
  /-- Reset: `RESET`. -/
  | reset
  deriving DecidableEq, Repr

/-- What the environment gets back (R152, last column). -/
inductive Answer where
  | nothing
  | ready (value : Bool)
  | packet (bits : Acc)
  | reading (value : Reading)
  deriving DecidableEq, Repr

/-- The operation an interaction applies; a read of an output applies none. -/
def Act.instr : Act → Option Instr
  | .edge ts level _ => some (.edge ts level)
  | .poll => none
  | .take _ => none
  | .decode packet now => some (.decode packet now)
  | .rearm => some .rearm
  | .reset => some .reset

/-- What an interaction does to the block: it may come at any moment, and "no port read has a side effect"
(20_memory.md R35). -/
def Act.perform (a : Act) (s : State) : Result :=
  match a.instr with
  | some i => exec i s
  | none => .next s

/-- What the environment keeps of its own to know its duties (log 25). -/
structure Environment where
  /-- The true time of the last edge delivered, in microseconds. -/
  clock : Nat
  /-- Has a poll found the last completed packet ready, the step "check flag" of the protocol (R158)? -/
  checked : Bool
  /-- Which bits of the last completed packet have been read since it completed. -/
  taken : Acc
  /-- What was read of them. -/
  packet : Acc
  /-- Has the last completed packet been decoded? -/
  decoded : Bool
  /-- Is the one `REARM` of the last completed packet, or of the start-up, still to come? -/
  mayRearm : Bool
  /-- Does it accept the loss of an unread packet when it resets? -/
  acceptsLoss : Bool
  /-- The number of takes so far, which numbers the free values of those that race with the handler (log 26). -/
  reads : Nat
  deriving DecidableEq, Repr

/-- The environment at start-up: nothing to read, nothing to decode, and one `REARM` allowed after the `RESET`, where
it is "unnecessary and harmless" (70_reset_and_hazards.md R157). -/
def Environment.start (acceptsLoss : Bool) : Environment where
  clock := 0
  checked := false
  taken := BitVec.allOnes 36
  packet := 0
  decoded := true
  mayRearm := true
  acceptsLoss := acceptsLoss
  reads := 0

/-- What a read of `packet_o` shows the reader: the packet while `ready = 1` (20_memory.md R35), and any value while
`enable = 1`, when the handler may be changing it (70_reset_and_hazards.md R158, U19; log 26). -/
def Environment.packetSeen (e : Environment) (s : State) : Acc :=
  if s.ready then s.packetO else Config.racedRead e.reads s.acc

/-- What the environment gets back from an interaction (R152, last column), from the outputs of 10_state.md R26. -/
def Act.answer (a : Act) (e : Environment) (s : State) : Answer :=
  match a with
  | .edge _ _ _ => .nothing
  | .poll => .ready s.ready
  | .take part => .packet (e.packetSeen s &&& part)
  | .decode packet now => .reading (readingOf config packet now)
  | .rearm => .nothing
  | .reset => .nothing

/-- Has the reader "finished reading" (R152)? Every bit of the last completed packet has been read. -/
def Environment.finished (e : Environment) : Bool := e.taken == BitVec.allOnes 36

/-- What the environment keeps after an interaction that took the block from `s` to `t`: a completion gives it a new
packet, not yet checked and none of it read; a poll checks; a `REARM` or a `RESET` ends the protocol for the packet, and
a `RESET` leaves nothing to read or to decode and is a new start-up (R157). -/
def Environment.after (e : Environment) (a : Act) (s t : State) : Environment :=
  match a with
  | .edge _ _ time =>
    if s.enable && t.ready then
      { e with clock := time, checked := false, taken := 0, packet := 0, decoded := false, mayRearm := true }
    else { e with clock := time }
  | .poll => { e with checked := s.ready }
  | .take part =>
    { e with taken := e.taken ||| part, packet := (e.packet &&& ~~~part) ||| (e.packetSeen s &&& part), reads := e.reads + 1 }
  | .decode _ _ => { e with decoded := true }
  | .rearm => { e with checked := false, mayRearm := false }
  | .reset => { e with checked := false, taken := BitVec.allOnes 36, decoded := true, mayRearm := true }

/-- The handler's "must" (R152, edge delivery; 70_reset_and_hazards.md R161, R162): edges come in the order they
occurred, and every timestamp is the one microsecond counter, `TW` bits of the true time. One at a time, each after
the one before has ended, is how `Act.perform` performs them. -/
def handlerDuty (e : Environment) (a : Act) : Bool :=
  match a with
  | .edge ts _ time => decide (e.clock ≤ time) && ts == BitVec.ofNat 32 time
  | .poll => true
  | .take _ => true
  | .decode _ _ => true
  | .rearm => true
  | .reset => true

/-- The reader's "must" (R152): poll at any time; "check flag false → read accumulator → set flag true", in that order
(70_reset_and_hazards.md R158): take the packet only while `ready = 1` and after a poll has found it so, and before its
own `REARM`; decode a completed packet, at most once and while `ready = 1` (R165); re-arm after it has finished reading,
once per packet, with or without a `RESET` before; reset where no unread packet is lost or the loss is accepted
(R164). -/
def readerDuty (e : Environment) (a : Act) (s : State) : Bool :=
  match a with
  | .edge _ _ _ => true
  | .poll => true
  | .take _ => s.ready && e.checked
  | .decode packet _ => s.ready && e.finished && packet.setWidth 36 == e.packet && !e.decoded
  | .rearm => e.finished && e.mayRearm
  | .reset => s.enable || e.finished || e.acceptsLoss

/-- The "preferably" of R152: a `REARM` is preceded by a `RESET`, so that the block does not hold a complete packet
and no append can overrun (70_reset_and_hazards.md R160). An advice, no duty. -/
def rearmPreferred (a : Act) (s : State) : Bool :=
  match a with
  | .edge _ _ _ => true
  | .poll => true
  | .take _ => true
  | .decode _ _ => true
  | .rearm => decide (s.bitCount.toNat < 36)
  | .reset => true

/-- Does the environment keep every duty in a sequence of interactions? A sequence that stops is none of its runs. -/
def dutiful (e : Environment) (s : State) : List Act → Bool
  | [] => true
  | a :: rest =>
    handlerDuty e a && readerDuty e a s &&
      match a.perform s with
      | .next t => dutiful (e.after a s t) t rest
      | .fault _ => false
      | .refused _ => false

/-- What holds between the block and the environment, whether or not it keeps its duties: while a packet is ready, what
was read of it is the packet's, and its `REARM` is still to come; and what a poll has found ready still is. -/
abbrev Environment.Agrees (e : Environment) (s : State) : Prop :=
  (s.ready = true → e.packet = s.acc &&& e.taken ∧ e.mayRearm = true) ∧ (e.checked = true → s.ready = true)

end Sys2Proof.Machine
end

