-- ==== Sys2Proof/Machine/Trace.lean ====
section
/-! DEFINITION. Sequences of operations as the spec writes them: the lines of a trace (30_encoding.md R59) and its
pseudo-operations (R60). -/

namespace Sys2Proof.Machine

/-- One measured pulse: how long it lasted and the level of the edge that ended it. -/
abbrev Pulse := Timestamp × Level

/-- `HIGHPULSE d`: the line was high for `d` and goes low (R60). -/
def highPulse (d : Timestamp) : List Pulse := [(d, .low)]

/-- `LOWPULSE d`: the line was low for `d` and goes high (R60). -/
def lowPulse (d : Timestamp) : List Pulse := [(d, .high)]

/-- `SYNC` (R60). -/
def syncPulses : List Pulse := highPulse 500 ++ lowPulse 4000

/-- `BIT0` and `BIT1` (R60). -/
def bitPulses (b : Bool) : List Pulse := highPulse 500 ++ lowPulse (if b then 2000 else 1000)

/-- `PACKET p`: the 36 bits, bit 35 first (R60). -/
def packetPulses (p : Acc) : List Pulse :=
  (List.range 36).flatMap fun k => bitPulses (p.getLsbD (35 - k))

/-- The edges of a sequence of pulses after an edge at time `t`, all arithmetic modulo `2^TW` (R60). -/
def pulseEdges (t : Timestamp) : List Pulse → List Instr
  | [] => []
  | (d, level) :: rest => .edge (t + d) level :: pulseEdges (t + d) rest

/-- The time of the last edge of a sequence of pulses after an edge at time `t`. -/
def pulsesEnd (t : Timestamp) : List Pulse → Timestamp
  | [] => t
  | (d, _) :: rest => pulsesEnd (t + d) rest

/-- `AT t H; SYNC; PACKET p`, the canonical sequence (R60, 41_assembler.md R108). -/
def canonicalSequence (t : Timestamp) (p : Acc) : List Instr :=
  .edge t .high :: pulseEdges t (syncPulses ++ packetPulses p)

/-- The line of a trace that writes an operation, numbers in decimal (R59); none for the dispatch rows and the fields,
which have no line. -/
def traceLine : Instr → Option String
  | .reset => some "RESET"
  | .rearm => some "REARM"
  | .nop => some "NOP"
  | .edge ts level => some ("EDGE " ++ toString ts.toNat ++ (if level = .high then " H" else " L"))
  | .decode packet now => some ("DECODE " ++ toString packet.toNat ++ " " ++ toString now.toNat)
  | .guard _ _ => none
  | .sshLFit _ _ => none
  | .sshLMiss _ _ => none
  | .sshH _ _ => none
  | .sslHFit _ _ => none
  | .sslHMiss _ _ => none
  | .sslL _ _ => none
  | .rbsL _ _ => none
  | .rbsH _ _ => none
  | .rbeHZero _ _ => none
  | .rbeHOne _ _ => none
  | .rbeHMiss _ _ => none
  | .rbeL _ _ => none
  | .idleAny _ _ => none
  | .rsvd5 _ _ => none
  | .rsvd67 _ _ => none
  | .fieldId _ => none
  | .fieldBattery _ => none
  | .fieldUnused26 _ => none
  | .fieldChannel _ => none
  | .fieldTemp _ => none
  | .fieldPad _ => none
  | .fieldHumidity _ => none

end Sys2Proof.Machine
end

