-- ==== Sys2Proof/Safety.lean ====
section
/-! DEFINITION. The terms claims are made in: runs of operations, the invariants of 10_state.md R23, the source's
transition table read straight from the rules, and what each role may do (60_exceptions.md R146), which the block does not check;
the duties of R152 stand in Sys2Proof/Machine/Environment.lean. -/

namespace Sys2Proof.Machine

/-- The operations of a list, one after another, stopping at the first that stops. -/
def runAll : List Instr → State → Result
  | [], s => .next s
  | i :: rest, s =>
    match exec i s with
    | .next t => runAll rest t
    | .fault f => .fault f
    | .refused q => .refused q

/-- The operations of the field decoder, the rows of format `PACKET36`. -/
def isDecoderOp : Instr → Bool
  | .decode _ _ => true
  | .fieldId _ => true
  | .fieldBattery _ => true
  | .fieldUnused26 _ => true
  | .fieldChannel _ => true
  | .fieldTemp _ => true
  | .fieldPad _ => true
  | .fieldHumidity _ => true
  | .nop => false
  | .edge _ _ => false
  | .rearm => false
  | .reset => false
  | .guard _ _ => false
  | .sshLFit _ _ => false
  | .sshLMiss _ _ => false
  | .sshH _ _ => false
  | .sslHFit _ _ => false
  | .sslHMiss _ _ => false
  | .sslL _ _ => false
  | .rbsL _ _ => false
  | .rbsH _ _ => false
  | .rbeHZero _ _ => false
  | .rbeHOne _ _ => false
  | .rbeHMiss _ _ => false
  | .rbeL _ _ => false
  | .idleAny _ _ => false
  | .rsvd5 _ _ => false
  | .rsvd67 _ _ => false

/-- The four states the block can be in (10_state.md R11). -/
def isReachableState : DecState → Bool
  | .searchSyncHigh => true
  | .searchSyncLow => true
  | .readBitStart => true
  | .readBitEnd => true
  | .idle => false
  | .rsvd5 => false
  | .rsvd6 => false
  | .rsvd7 => false

/-- The invariants (a) to (d) of 10_state.md R23 at the default parameters: the counter is at most 36; only the top
`bit_count` bits of `acc` can be nonzero; a disabled block holds a complete packet in `ReadBitStart`; the state is one of
the four. -/
abbrev State.Inv (s : State) : Prop :=
  s.bitCount.toNat ≤ 36
    ∧ s.acc.toNat % 2 ^ (36 - s.bitCount.toNat) = 0
    ∧ (s.enable = false → s.bitCount = 36 ∧ s.state = .readBitStart)
    ∧ isReachableState s.state = true

/-- No append can overrun: an enabled block holds fewer than 36 bits (41_assembler.md R103, 70_reset_and_hazards.md
R160). -/
abbrev State.Armed (s : State) : Prop :=
  s.enable = true → s.bitCount.toNat < 36

/-- The transition table as 41_assembler.md R88 to R100 give it row by row, with R86, R87 and R104, and the windows of
40_classifier.md R72 as numbers: what the match and mask columns of the dispatch map must come to. The source's table
has the twelve rows of its four states; that the guard leaves `last_ts` is decision D8 (log 12), that an abort leaves
`acc` and `bit_count` D11 (log 15), that `Idle` and the reserved codes hold D12 (log 16). -/
def edgeByTable (ts : Timestamp) (level : Level) (s : State) : Result :=
  let d := (ts.toNat + 2 ^ 32 - s.lastTs.toNat) % 2 ^ 32
  let held : State := { s with lastTs := ts }
  let aborted : State := { s with lastTs := ts, state := .searchSyncHigh }
  if s.enable = false then .next s
  else match s.state, level with
    | .searchSyncHigh, .low => if 200 < d ∧ d < 800 then .next { held with state := .searchSyncLow } else .next aborted
    | .searchSyncHigh, .high => .next held
    | .searchSyncLow, .high =>
      if 3700 < d ∧ d < 4300 then .next { held with acc := 0, bitCount := 0, state := .readBitStart } else .next aborted
    | .searchSyncLow, .low => .next held
    | .readBitStart, .low => .next { held with state := .readBitEnd }
    | .readBitStart, .high => .next held
    | .readBitEnd, .high =>
      if 700 < d ∧ d < 1300 then append config false held
      else if 1700 < d ∧ d < 2300 then append config true held
      else .next aborted
    | .readBitEnd, .low => .next held
    | .idle, _ => .next held
    | .rsvd5, _ => .next held
    | .rsvd6, _ => .next held
    | .rsvd7, _ => .next held

/-- The two roles (60_exceptions.md R146): who acts, no mode bit. -/
inductive Role where
  | handler
  | reader
  deriving DecidableEq, Repr

/-- The five registers by name (10_state.md R10). -/
inductive Register where
  | state
  | acc
  | bitCount
  | lastTs
  | enable
  deriving DecidableEq, Repr

/-- What a role may issue (60_exceptions.md R146); `NOP` is nobody's act. -/
def Role.mayIssue (role : Role) (i : Instr) : Bool :=
  match i with
  | .nop => true
  | .rearm => role == .reader
  | .reset => role == .reader
  | i => if isDecoderOp i then role == .reader else role == .handler

/-- What a role may read (10_state.md R16): the reader reads `enable` always and `acc` only while `enable = 0`; the rest
is for test inspection. -/
def Role.mayRead (role : Role) (r : Register) (s : State) : Bool :=
  match role, r with
  | .handler, _ => true
  | .reader, .enable => true
  | .reader, .acc => !s.enable
  | .reader, .state => false
  | .reader, .bitCount => false
  | .reader, .lastTs => false

end Sys2Proof.Machine
end

