-- ==== Sys2Proof/Certificates/Slice0/Obligations.lean ====
section
/-! DEFINITION. The statements for the provers. Each docstring names the rule it formalises. -/

open Sys2Proof Sys2Proof.Machine

/-- 10_state.md section 5 (the table of R24): the registers after reset. Only `state` is the source's; the four others
are the spec's own decision D7, the model's choice by log 8. -/
def Obligations.ResetHoldsTheResetTable : Prop :=
  State.reset.tuple = (DecState.searchSyncHigh, 0, 0, 0, true)
    ∧ State.reset.stateO = 0 ∧ State.reset.ready = false ∧ State.reset.inputs = []

/-- 30_encoding.md sections 1 and 2: no bit of an encoding is dropped. -/
def Obligations.DecodeOfEncodeIsTheInstruction : Prop :=
  ∀ i : Instr, i.wellFormed = true → decode (encode i) = i

/-- 30_encoding.md section 1 (R46: the canonical encoding has the ignored fields zero; R57: no illegal word): every word
decodes to a well-formed operation, and encoding that gives the word back, a command's ignored fields zeroed. -/
def Obligations.EveryWordDecodesAndReencodes : Prop :=
  ∀ r : Request, (decode r).wellFormed = true
    ∧ encode (decode r) = match r with
      | .cmd w => if w &&& 0x600000000 = 0x200000000 then .cmd w else .cmd (w &&& 0x600000000)
      | .row dw ts => .row dw ts
      | .decode p now => .decode p now
      | .field f p => .field f p

/-- 30_encoding.md section 1.3 (R52): the sixteen rows partition all dispatch words. -/
def Obligations.DispatchRowsPartitionAllWords : Prop :=
  ∀ (dw : DispatchWord) (r : Row), dw &&& rowMask r = rowMatch r ↔ selectRow dw = r

/-- 95_test_vectors.md V-EDGE, V-CTL, V-DISPATCH: words written out from 30_encoding.md section 1. -/
def Obligations.SampleWordsDecode : Prop :=
  decode (.cmd 0x2000005DC) = .edge 1500 .low ∧ decode (.cmd 0x3000003E8) = .edge 1000 .high
    ∧ decode (.cmd 0x400000000) = .rearm ∧ decode (.cmd 0x5000003E8) = .rearm
    ∧ decode (.cmd 0x600000000) = .reset ∧ decode (.cmd 0x000000000) = .nop
    ∧ decode (.row 0x172 7) = .rbeHOne 0x172 7 ∧ decode (.row 0x173 7) = .rbeHZero 0x173 7
    ∧ decode (.row 0x0FF 7) = .guard 0x0FF 7
    ∧ decode (.decode 0x123456789 99) = .decode 0x123456789 99
    ∧ decode (.field .tempRaw 0x123456789) = .fieldTemp 0x123456789

/-- 30_encoding.md section 1.1 (R46): bits 34:33 select the operation; only `EDGE` reads bit 32 and bits 31:0. -/
def Obligations.CommandFieldsAreWhereTheFormatSays : Prop :=
  ∀ w : CmdWord,
    (w.toNat / 2 ^ 33 = 0 → decode (.cmd w) = .nop)
    ∧ (w.toNat / 2 ^ 33 = 1 → decode (.cmd w) = .edge (w.setWidth 32) (if w.getLsbD 32 then .high else .low))
    ∧ (w.toNat / 2 ^ 33 = 2 → decode (.cmd w) = .rearm)
    ∧ (w.toNat / 2 ^ 33 = 3 → decode (.cmd w) = .reset)

/-- 20_memory.md section 3 and 41_assembler.md section 8: a step performs the oldest presented operation, as one
operation; with none presented nothing changes. The queue is the model's own (log 3). -/
def Obligations.StepPerformsTheOldestOperation : Prop :=
  ∀ s : State,
    (s.inputs = [] → step s = .next s)
    ∧ (∀ r rest, s.inputs = r :: rest → step s = exec (decode r) { s with inputs := rest })
    ∧ (∀ i rest, i.wellFormed = true → s.inputs = encode i :: rest → step s = exec i { s with inputs := rest })

/-- R112. -/
def Obligations.NopWritesNothing : Prop :=
  ∀ s : State, exec .nop s = .next s

/-- 42_control_ops.md (R110; that nothing else is written is the spec's decision D14, log 17): `REARM` sets `enable`,
and changes nothing where it is already set. -/
def Obligations.RearmSetsEnableOnly : Prop :=
  ∀ s : State, exec .rearm s = .next { s with enable := true } ∧ (s.enable = true → exec .rearm s = .next s)

/-- 42_control_ops.md (R111; decisions D7, D13; logs 8 and 17): `RESET` writes all five registers whatever they hold,
and is idempotent. -/
def Obligations.ResetWritesAllFiveRegisters : Prop :=
  ∀ s : State, ∃ t : State, exec .reset s = .next t
    ∧ t = { s with state := .searchSyncHigh, acc := 0, bitCount := 0, lastTs := 0, enable := true }
    ∧ exec .reset t = .next t

/-- R70, at every timer width. -/
def Obligations.DurationIsTheDifferenceModuloTheWidth : Prop :=
  ∀ (tw : Nat) (ts last : BitVec tw),
    (duration ts last).toNat = (ts.toNat + 2 ^ tw - last.toNat) % 2 ^ tw
    ∧ (ts = last → duration ts last = 0)
    ∧ (ts.toNat < last.toNat → (duration ts last).toNat = ts.toNat + 2 ^ tw - last.toNat)

/-- 40_classifier.md section 2 (R71; the comparison of the whole duration is decision D24, log 23): for every choice
of the parameters and every timer width, a duration fits iff it lies in the open interval, so both boundaries fail. -/
def Obligations.FitIsTheOpenInterval : Prop :=
  ∀ (c : Config) (p d : Nat),
    (fits c p d = true ↔ (p : Int) - c.tol < d ∧ (d : Int) < p + c.tol)
    ∧ fits c p (p + c.tol) = false
    ∧ (c.tol ≤ p → fits c p (p - c.tol) = false)

/-- 40_classifier.md section 2 (R72): the four windows as numbers, at every timer width. -/
def Obligations.WindowsOfTheFourProfiles : Prop :=
  ∀ (tw : Nat) (d : BitVec tw),
    (fitSyncHigh config d = true ↔ 201 ≤ d.toNat ∧ d.toNat ≤ 799)
    ∧ (fitSyncLow config d = true ↔ 3701 ≤ d.toNat ∧ d.toNat ≤ 4299)
    ∧ (fitOne config d = true ↔ 1701 ≤ d.toNat ∧ d.toNat ≤ 2299)
    ∧ (fitZero config d = true ↔ 701 ≤ d.toNat ∧ d.toNat ≤ 1299)

/-- 40_classifier.md section 3 (R74): the fit vectors that occur are six, each at every timer width the rules allow
(00_scope.md R6: 13 bits or more) and no other at any width; the three low-pulse windows are disjoint; sync high and
zero overlap from 701 to 799. -/
def Obligations.FitVectorsThatOccur : Prop :=
  let vectors := [0b0000#4, 0b1000#4, 0b1001#4, 0b0001#4, 0b0010#4, 0b0100#4]
  (∀ (tw : Nat) (d : BitVec tw),
    fitVector config d ∈ vectors ∧ (fitVector config d = 0b1001#4 ↔ 701 ≤ d.toNat ∧ d.toNat ≤ 799))
  ∧ ∀ tw : Nat, 13 ≤ tw → ∀ v ∈ vectors, ∃ d : BitVec tw, fitVector config d = v

/-- R75: zero is evaluated before one, whatever the profiles; with the literal values no duration fits both. -/
def Obligations.ZeroIsEvaluatedBeforeOne : Prop :=
  (∀ (c : Config) (s : State) (ts : Timestamp), s.enable = true → s.state = .readBitEnd →
    (fitZero c (duration ts s.lastTs) = true →
      selectRow (dispatchWord c ts .high s) = .rbeHZero
      ∧ edge c ts .high s = append c false { s with lastTs := ts })
    ∧ (fitZero c (duration ts s.lastTs) = false → fitOne c (duration ts s.lastTs) = true →
      selectRow (dispatchWord c ts .high s) = .rbeHOne
      ∧ edge c ts .high s = append c true { s with lastTs := ts }))
  ∧ ∀ (tw : Nat) (d : BitVec tw), ¬ (fitZero config d = true ∧ fitOne config d = true)

/-- R88, as the `EDGE` that selects the row and as the row by itself. -/
def Obligations.SyncHighFitEntersSearchSyncLow : Prop :=
  ∀ (s : State) (ts : Timestamp), s.enable = true → s.state = .searchSyncHigh →
    (fitSyncHigh config (duration ts s.lastTs) = true →
      exec (.edge ts .low) s = .next { s with state := .searchSyncLow, lastTs := ts })
    ∧ ∀ dw : DispatchWord, dw &&& 0x1F8 = 0x108 →
      exec (.sshLFit dw ts) s = .next { s with state := .searchSyncLow, lastTs := ts }

/-- 41_assembler.md section 2 (R89; that `reset_search` leaves `acc` and `bit_count` is decision D11, log 15). -/
def Obligations.SyncHighMissKeepsSearching : Prop :=
  ∀ (s : State) (ts : Timestamp), s.enable = true → s.state = .searchSyncHigh →
    (fitSyncHigh config (duration ts s.lastTs) = false →
      exec (.edge ts .low) s = .next { s with state := .searchSyncHigh, lastTs := ts })
    ∧ ∀ dw : DispatchWord, dw &&& 0x1F8 = 0x100 →
      exec (.sshLMiss dw ts) s = .next { s with state := .searchSyncHigh, lastTs := ts }

/-- R90. -/
def Obligations.HighInSearchSyncHighIsIgnored : Prop :=
  ∀ (s : State) (ts : Timestamp), s.enable = true → s.state = .searchSyncHigh →
    exec (.edge ts .high) s = .next { s with lastTs := ts }
    ∧ ∀ dw : DispatchWord, dw &&& 0x1F0 = 0x110 → exec (.sshH dw ts) s = .next { s with lastTs := ts }

/-- R91, with its "only row that clears": any other row leaves the counter or adds one, and takes no bit from `acc`. -/
def Obligations.SyncLowFitClearsAndStartsReading : Prop :=
  (∀ (s : State) (ts : Timestamp), s.enable = true → s.state = .searchSyncLow →
    (fitSyncLow config (duration ts s.lastTs) = true →
      exec (.edge ts .high) s = .next { s with acc := 0, bitCount := 0, state := .readBitStart, lastTs := ts })
    ∧ ∀ dw : DispatchWord, dw &&& 0x1F4 = 0x134 →
      exec (.sslHFit dw ts) s = .next { s with acc := 0, bitCount := 0, state := .readBitStart, lastTs := ts })
  ∧ ∀ (r : Row) (ts : Timestamp) (s t : State), r ≠ .sslHFit → performRow config r ts s = .next t →
    (t.bitCount = s.bitCount ∨ t.bitCount = s.bitCount + 1) ∧ s.acc &&& t.acc = s.acc

/-- 41_assembler.md section 3 (R92; that `reset_search` leaves `acc` and `bit_count` is decision D11, log 15). -/
def Obligations.SyncLowMissResetsTheSearch : Prop :=
  ∀ (s : State) (ts : Timestamp), s.enable = true → s.state = .searchSyncLow →
    (fitSyncLow config (duration ts s.lastTs) = false →
      exec (.edge ts .high) s = .next { s with state := .searchSyncHigh, lastTs := ts })
    ∧ ∀ dw : DispatchWord, dw &&& 0x1F4 = 0x130 →
      exec (.sslHMiss dw ts) s = .next { s with state := .searchSyncHigh, lastTs := ts }

/-- R93, with its corner case: a following `HIGH` event's duration is measured from the ignored `LOW`. -/
def Obligations.LowInSearchSyncLowIsIgnored : Prop :=
  ∀ (s : State) (ts : Timestamp), s.enable = true → s.state = .searchSyncLow →
    exec (.edge ts .low) s = .next { s with lastTs := ts }
    ∧ (∀ u, runAll [.edge ts .low, .edge u .high] s = exec (.edge u .high) { s with lastTs := ts })
    ∧ ∀ dw : DispatchWord, dw &&& 0x1F0 = 0x120 → exec (.sslL dw ts) s = .next { s with lastTs := ts }

/-- R94: untested, for every duration. -/
def Obligations.LowInReadBitStartOpensTheBit : Prop :=
  ∀ (s : State) (ts : Timestamp), s.enable = true → s.state = .readBitStart →
    exec (.edge ts .low) s = .next { s with state := .readBitEnd, lastTs := ts }
    ∧ ∀ dw : DispatchWord, dw &&& 0x1F0 = 0x140 →
      exec (.rbsL dw ts) s = .next { s with state := .readBitEnd, lastTs := ts }

/-- R95. -/
def Obligations.HighInReadBitStartIsIgnored : Prop :=
  ∀ (s : State) (ts : Timestamp), s.enable = true → s.state = .readBitStart →
    exec (.edge ts .high) s = .next { s with lastTs := ts }
    ∧ ∀ dw : DispatchWord, dw &&& 0x1F0 = 0x150 → exec (.rbsH dw ts) s = .next { s with lastTs := ts }

/-- 41_assembler.md sections 5 and 6 (R96 with R101 to R103; the state after the 36th bit is decision D9, log 9; the
overrun is decision D10, log 10): a zero moves the counter and leaves `acc`; the 36th completes; beyond it the fault. -/
def Obligations.ZeroPulseAppendsZero : Prop :=
  ∀ (s : State) (ts : Timestamp) (i : Instr), s.enable = true → s.state = .readBitEnd →
    (i = .edge ts .high ∧ fitZero config (duration ts s.lastTs) = true
      ∨ ∃ dw : DispatchWord, dw &&& 0x1F1 = 0x171 ∧ i = .rbeHZero dw ts) →
    (s.bitCount.toNat < 36 →
      exec i s = .next { s with bitCount := s.bitCount + 1, state := .readBitStart, lastTs := ts,
                                enable := decide (s.bitCount.toNat ≠ 35) })
    ∧ (36 ≤ s.bitCount.toNat → exec i s = .fault .overrun)

/-- 41_assembler.md sections 5 and 6 (R97 with R101 to R103; logs 9 and 10): a one sets bit `35 - bit_count` of `acc`.
-/
def Obligations.OnePulseAppendsOne : Prop :=
  ∀ (s : State) (ts : Timestamp) (i : Instr), s.enable = true → s.state = .readBitEnd →
    (i = .edge ts .high ∧ fitOne config (duration ts s.lastTs) = true
      ∨ ∃ dw : DispatchWord, dw &&& 0x1F3 = 0x172 ∧ i = .rbeHOne dw ts) →
    (s.bitCount.toNat < 36 →
      exec i s = .next { s with acc := s.acc ||| BitVec.ofNat 36 (2 ^ (35 - s.bitCount.toNat)),
                                bitCount := s.bitCount + 1, state := .readBitStart, lastTs := ts,
                                enable := decide (s.bitCount.toNat ≠ 35) })
    ∧ (36 ≤ s.bitCount.toNat → exec i s = .fault .overrun)

/-- 41_assembler.md section 5 (R99; that `reset_search` leaves `acc` and `bit_count` is decision D11, log 15): whatever
the counter holds, 36 included. -/
def Obligations.MisfitInReadBitEndAbortsThePacket : Prop :=
  ∀ (s : State) (ts : Timestamp), s.enable = true → s.state = .readBitEnd →
    (fitZero config (duration ts s.lastTs) = false → fitOne config (duration ts s.lastTs) = false →
      exec (.edge ts .high) s = .next { s with state := .searchSyncHigh, lastTs := ts })
    ∧ ∀ dw : DispatchWord, dw &&& 0x1F3 = 0x170 →
      exec (.rbeHMiss dw ts) s = .next { s with state := .searchSyncHigh, lastTs := ts }

/-- R100, with its corner case: a following `HIGH` event's duration is measured from the ignored `LOW`. -/
def Obligations.LowInReadBitEndIsIgnored : Prop :=
  ∀ (s : State) (ts : Timestamp), s.enable = true → s.state = .readBitEnd →
    exec (.edge ts .low) s = .next { s with lastTs := ts }
    ∧ (∀ u, runAll [.edge ts .low, .edge u .high] s = exec (.edge u .high) { s with lastTs := ts })
    ∧ ∀ dw : DispatchWord, dw &&& 0x1F0 = 0x160 → exec (.rbeL dw ts) s = .next { s with lastTs := ts }

/-- 41_assembler.md section 7 (R104, the spec's decision D12, log 16): `Idle` and the reserved codes hold. -/
def Obligations.IdleAndReservedStatesHold : Prop :=
  ∀ (s : State) (ts : Timestamp), s.enable = true →
    (isReachableState s.state = false → ∀ level, exec (.edge ts level) s = .next { s with lastTs := ts })
    ∧ (s.state = .idle → ∀ dw : DispatchWord, dw &&& 0x1E0 = 0x180 →
        exec (.idleAny dw ts) s = .next { s with lastTs := ts })
    ∧ (s.state = .rsvd5 → ∀ dw : DispatchWord, dw &&& 0x1E0 = 0x1A0 →
        exec (.rsvd5 dw ts) s = .next { s with lastTs := ts })
    ∧ (s.state = .rsvd6 → ∀ dw : DispatchWord, dw &&& 0x1E0 = 0x1C0 →
        exec (.rsvd67 dw ts) s = .next { s with lastTs := ts })
    ∧ (s.state = .rsvd7 → ∀ dw : DispatchWord, dw &&& 0x1E0 = 0x1E0 →
        exec (.rsvd67 dw ts) s = .next { s with lastTs := ts })

/-- 41_assembler.md section 1 (R86; that `last_ts` stays is decision D8, log 12): the guard, and the row by itself in
every state. -/
def Obligations.GuardedEdgeIsANoOp : Prop :=
  (∀ (s : State) (ts : Timestamp) (level : Level), s.enable = false → exec (.edge ts level) s = .next s)
  ∧ ∀ (s : State) (dw : DispatchWord) (ts : Timestamp), exec (.guard dw ts) s = .next s

/-- 20_memory.md section 4 (R38; that `last_ts` stays too is decision D8, log 12): while `enable = 0` any sequence of
transitions leaves the whole state, and between the completing append and the next `REARM` or `RESET` the tuple is
constant whatever else is performed. -/
def Obligations.DisabledBlockKeepsItsTuple : Prop :=
  ∀ s : State, s.enable = false →
    (∀ es : List (Timestamp × Level), runAll (es.map fun e => .edge e.1 e.2) s = .next s)
    ∧ ∀ is : List Instr, (∀ i ∈ is, i ≠ .rearm ∧ i ≠ .reset) → ∃ t, runAll is s = .next t ∧ t.tuple = s.tuple

/-- 41_assembler.md section 1 (R85): an `EDGE` does what the one row does that its dispatch word selects. -/
def Obligations.EdgePerformsTheSelectedRow : Prop :=
  ∀ (s : State) (ts : Timestamp) (level : Level),
    exec (.edge ts level) s
      = exec (rowInstr (dispatchWord config ts level s) ts (selectRow (dispatchWord config ts level s))) s

/-- The model's choice (log 4): a row presented by itself writes nothing where its dispatch word is not of its pattern
or does not carry the registers' `enable` and `state`. -/
def Obligations.RowNotSelectedWritesNothing : Prop :=
  ∀ (r : Row) (dw : DispatchWord) (ts : Timestamp) (s : State),
    (dw &&& rowMask r ≠ rowMatch r ∨ dw.getLsbD 8 ≠ s.enable ∨ dw.extractLsb' 5 3 ≠ s.stateO) →
    exec (rowInstr dw ts r) s = .next s

/-- R101, for every choice of `S_DONE`, bit by bit: the bit goes to position `35 - bit_count`. -/
def Obligations.AppendWritesPosition35MinusCounter : Prop :=
  ∀ (c : Config) (b : Bool) (s : State), s.bitCount.toNat ≤ 35 →
    ∃ t : State, append c b s = .next t
      ∧ (∀ j, t.acc.getLsbD j = (s.acc.getLsbD j || (b && decide (j = 35 - s.bitCount.toNat))))
      ∧ t.bitCount.toNat = s.bitCount.toNat + 1
      ∧ (s.bitCount.toNat + 1 = 36 → t.enable = false ∧ t.state = c.sDone)
      ∧ (s.bitCount.toNat + 1 ≠ 36 → t.enable = s.enable ∧ t.state = .readBitStart)
      ∧ t.lastTs = s.lastTs ∧ t.inputs = s.inputs ∧ t.reading = s.reading

/-- 41_assembler.md sections 1 to 7 against 30_encoding.md section 1.3: the match and mask columns come to the
transition table. Of what the table says, only the twelve rows are the source's: that the guard leaves `last_ts` is
decision D8 (log 12), that an abort leaves `acc` and `bit_count` is D11 (log 15), and that `Idle` and the reserved
codes hold is D12 (log 16). -/
def Obligations.EdgeFollowsTheTransitionTable : Prop :=
  ∀ (s : State) (ts : Timestamp) (level : Level), exec (.edge ts level) s = edgeByTable ts level s

/-- 41_assembler.md section 8 (R108, its general form): from `SearchSyncHigh` with `enable = 1`, a sync pulse pair and
36 bits, each duration anywhere in its window and each bit's high pulse of any length, deliver exactly the packet, and
`enable` falls in the 75th edge. -/
def Obligations.CanonicalSequenceDeliversThePacket : Prop :=
  ∀ (s : State) (t dh dl : Timestamp) (p : Acc) (bits : List (Timestamp × Timestamp)),
    s.state = .searchSyncHigh → s.enable = true →
    201 ≤ dh.toNat → dh.toNat ≤ 799 → 3701 ≤ dl.toNat → dl.toNat ≤ 4299 → bits.length = 36 →
    (∀ (k : Nat) (h : k < bits.length),
      if p.getLsbD (35 - k) then 1701 ≤ bits[k].2.toNat ∧ bits[k].2.toNat ≤ 2299
      else 701 ≤ bits[k].2.toNat ∧ bits[k].2.toNat ≤ 1299) →
    let pulses := (dh, Level.low) :: (dl, Level.high) :: bits.flatMap fun b => [(b.1, Level.low), (b.2, Level.high)]
    let edges := Instr.edge t .high :: pulseEdges t pulses
    runAll edges s
        = .next { s with state := .readBitStart, acc := p, bitCount := 36, lastTs := pulsesEnd t pulses, enable := false }
      ∧ ∀ n, n < 75 → ∃ u, runAll (edges.take n) s = .next u ∧ u.enable = true

/-- 41_assembler.md section 8 (R108, its own trace `AT t H; SYNC; PACKET p` of 30_encoding.md R60). -/
def Obligations.NominalSequenceDeliversThePacket : Prop :=
  ∀ (s : State) (t : Timestamp) (p : Acc), s.state = .searchSyncHigh → s.enable = true →
    (canonicalSequence t p).length = 75
    ∧ runAll (canonicalSequence t p) s
      = .next { s with state := .readBitStart, acc := p, bitCount := 36,
                       lastTs := pulsesEnd t (syncPulses ++ packetPulses p), enable := false }

/-- 41_assembler.md sections 7 and 8: below 36 bits every edge has a defined result, at both levels, in the four
reachable states (R106), and in `Idle` and the reserved codes too (R104, the spec's decision D12, log 16). -/
def Obligations.EveryEdgeBelow36BitsIsDefined : Prop :=
  ∀ (s : State) (ts : Timestamp) (level : Level), s.bitCount.toNat ≤ 35 → ∃ t, exec (.edge ts level) s = .next t

/-- 60_exceptions.md section 1 (R138, R139; log 10; that `Idle` and the reserved codes hold is decision D12, log 16):
nothing is refused, and the one fault is an append at 36 bits. -/
def Obligations.OverrunIsTheOnlyStop : Prop :=
  ∀ (i : Instr) (s : State),
    (∀ q, exec i s ≠ .refused q)
    ∧ ∀ f, exec i s = .fault f →
      f = .overrun ∧ s.enable = true ∧ s.state = .readBitEnd ∧ 36 ≤ s.bitCount.toNat

/-- 41_assembler.md section 1 (R87, the spec's decision D8, log 12; in `Idle` and the reserved codes R104, D12, log
16; that `REARM` leaves it is D14, log 17) and 10_state.md R14: every enabled edge writes `last_ts`, and nothing but
an edge, a row or `RESET` does. -/
def Obligations.LastTimestampIsThatOfTheLastEnabledEdge : Prop :=
  ∀ (i : Instr) (s t : State), exec i s = .next t →
    (∀ ts level, i = .edge ts level → s.enable = true → t.lastTs = ts)
    ∧ (s.enable = false → i ≠ .reset → t.lastTs = s.lastTs)
    ∧ (isDecoderOp i = true ∨ i = .nop ∨ i = .rearm → t.lastTs = s.lastTs)

/-- 10_state.md section 2 (R15) and 41_assembler.md R102: `enable` is cleared by the append that takes the counter
from 35 to 36 and by nothing else, and set by `REARM` and `RESET` only. -/
def Obligations.EnableFallsOnlyOnCompletion : Prop :=
  ∀ (i : Instr) (s t : State), exec i s = .next t →
    (s.enable = true → t.enable = false →
      s.state = .readBitEnd ∧ s.bitCount = 35 ∧ t.bitCount = 36 ∧ t.ready = true
      ∧ ((∃ ts, i = .edge ts .high) ∨ (∃ dw ts, i = .rbeHZero dw ts) ∨ ∃ dw ts, i = .rbeHOne dw ts))
    ∧ (s.enable = false → t.enable = true → i = .rearm ∨ i = .reset)

/-- 10_state.md section 2 (R12; the value at `RESET` is decision D7, log 8): `acc` changes in three places only,
`RESET`, the sync-low fit and the append of a one. -/
def Obligations.AccumulatorIsWrittenInThreePlaces : Prop :=
  ∀ (i : Instr) (s t : State), exec i s = .next t → t.acc ≠ s.acc →
    (i = .reset ∧ t.acc = 0)
    ∨ (((∃ ts, i = .edge ts .high ∧ fitSyncLow config (duration ts s.lastTs) = true) ∨ ∃ dw ts, i = .sslHFit dw ts)
        ∧ s.enable = true ∧ s.state = .searchSyncLow ∧ t.state = .readBitStart ∧ t.acc = 0 ∧ t.bitCount = 0)
    ∨ (((∃ ts, i = .edge ts .high ∧ fitOne config (duration ts s.lastTs) = true) ∨ ∃ dw ts, i = .rbeHOne dw ts)
        ∧ s.enable = true ∧ s.state = .readBitEnd ∧ s.bitCount.toNat ≤ 35
        ∧ t.acc = s.acc ||| BitVec.ofNat 36 (2 ^ (35 - s.bitCount.toNat)) ∧ t.bitCount = s.bitCount + 1)

/-- 10_state.md section 2 (R11; that `Idle` and the reserved codes hold is decision D12, log 16): no operation moves
the block into `Idle` or a reserved state. -/
def Obligations.IdleIsNeverEntered : Prop :=
  ∀ (i : Instr) (s t : State), exec i s = .next t → t.state = s.state ∨ isReachableState t.state = true

/-- 40_classifier.md section 4 (R78), and 41_assembler.md section 7 for `Idle` and the reserved codes (R104; that an
edge there consults nothing is decision D12, log 16): for an enabled edge the old `last_ts` matters only through the
fit bits the row's state consults, and not at all in any other state and level. -/
def Obligations.EachStateConsultsItsOwnFitsOnly : Prop :=
  ∀ (s : State) (ts u : Timestamp) (level : Level), s.enable = true →
    let d := duration ts s.lastTs
    let d' := duration ts u
    (s.state = .searchSyncHigh → level = .low → fitSyncHigh config d = fitSyncHigh config d' →
      exec (.edge ts level) { s with lastTs := u } = exec (.edge ts level) s)
    ∧ (s.state = .searchSyncLow → level = .high → fitSyncLow config d = fitSyncLow config d' →
      exec (.edge ts level) { s with lastTs := u } = exec (.edge ts level) s)
    ∧ (s.state = .readBitEnd → level = .high → fitZero config d = fitZero config d' →
        (fitZero config d = false → fitOne config d = fitOne config d') →
      exec (.edge ts level) { s with lastTs := u } = exec (.edge ts level) s)
    ∧ (¬ (s.state = .searchSyncHigh ∧ level = .low) → ¬ (s.state = .searchSyncLow ∧ level = .high) →
        ¬ (s.state = .readBitEnd ∧ level = .high) →
      exec (.edge ts level) { s with lastTs := u } = exec (.edge ts level) s)

/-- 42_control_ops.md (R114) and 70_reset_and_hazards.md R160 (the state after completion is decision D9, log 9; that
the abort keeps `acc` and `bit_count` is D11, log 15; the overrun is D10, log 10; that `REARM` writes `enable` alone
is D14, log 17): a completed block re-armed without reset ignores a `HIGH`, takes a `LOW` untested, and then a `HIGH`
either leads back to the search, packet and counter kept, or overruns. -/
def Obligations.RearmWithoutResetMayOverrun : Prop :=
  ∀ (s : State) (h l e : Timestamp), s.enable = false → s.state = .readBitStart → s.bitCount = 36 →
    runAll [.rearm, .edge h .high, .edge l .low] s = .next { s with enable := true, state := .readBitEnd, lastTs := l }
    ∧ (fitZero config (duration e l) = false → fitOne config (duration e l) = false →
        runAll [.rearm, .edge l .low, .edge e .high] s
          = .next { s with enable := true, state := .searchSyncHigh, lastTs := e })
    ∧ (fitZero config (duration e l) = true ∨ fitOne config (duration e l) = true →
        runAll [.rearm, .edge l .low, .edge e .high] s = .fault .overrun)

/-- 42_control_ops.md (R113, the spec's decision D15, log 19; that the ignored edge leaves `last_ts` is D8, log 12;
that `RESET` arms the block is D7, log 8; that `REARM` writes `enable` alone is D14, log 17): at the same instant
`RESET`, then `EDGE`, then `REARM`, each seeing the result of the one before; so an edge together with a re-arm is
still ignored. -/
def Obligations.SameInstantOrder : Prop :=
  ∀ (s : State) (ts : Timestamp) (level : Level),
    sameInstant true (some (ts, level)) true = [.reset, .edge ts level, .rearm]
    ∧ (s.enable = false →
      runAll (sameInstant false (some (ts, level)) true) s = .next { s with enable := true }
      ∧ ∃ t, runAll (sameInstant true (some (ts, level)) false) s = .next t ∧ t.enable = true ∧ t.lastTs = ts)

/-- 43_field_decoder.md (R120 to R127; decisions D16, D17, D18, D25, D28, logs 13, 14, 22; the field `reading` and the
64-bit port are the model's choice, logs 5 and 6): the fields of the reading as arithmetic on the operand, `CH_LSB` open
in the second part; no register of the block is read or written. -/
def Obligations.DecodeExtractsTheFixedFields : Prop :=
  (∀ (s : State) (p : DecPacket) (now : Timestamp), ∃ r : Reading,
    exec (.decode p now) s = .next { s with reading := r }
    ∧ r.timestamp = now
    ∧ r.id.toNat = p.toNat / 2 ^ 28 % 2 ^ 8
    ∧ (r.battery = true ↔ p.toNat / 2 ^ 27 % 2 = 1)
    ∧ r.channel.toNat = p.toNat / 2 ^ 24 % 2 ^ 2
    ∧ r.tempRaw.toNat = p.toNat / 2 ^ 12 % 2 ^ 12
    ∧ r.temperature config = (r.tempRaw.toNat : Rat) * (1 / 10)
    ∧ r.humidity.toNat = p.toNat % 2 ^ 8)
  ∧ ∀ (c : Config) (n : Nat) (p : BitVec n) (now : Timestamp),
    (readingOf c p now).channel.toNat = p.toNat / 2 ^ c.chLsb % 2 ^ 2

/-- 43_field_decoder.md (R121 to R124, R126, R128; decisions D17, D18, D28, logs 13, 14, 22; that a field by itself
moves only its own output is the model's choice, log 5): each field of the packet puts out its own value, the two
unused ones nothing. -/
def Obligations.EachFieldPutsOutItsOwnValue : Prop :=
  ∀ (s : State) (p : DecPacket),
    exec (.fieldId p) s
        = .next { s with reading := { s.reading with id := BitVec.ofNat 8 (p.toNat / 2 ^ 28) } }
    ∧ exec (.fieldBattery p) s
        = .next { s with reading := { s.reading with battery := decide (p.toNat / 2 ^ 27 % 2 = 1) } }
    ∧ exec (.fieldUnused26 p) s = .next s
    ∧ exec (.fieldChannel p) s
        = .next { s with reading := { s.reading with channel := BitVec.ofNat 2 (p.toNat / 2 ^ 24) } }
    ∧ exec (.fieldTemp p) s
        = .next { s with reading := { s.reading with tempRaw := BitVec.ofNat 12 (p.toNat / 2 ^ 12) } }
    ∧ exec (.fieldPad p) s = .next s
    ∧ exec (.fieldHumidity p) s
        = .next { s with reading := { s.reading with humidity := BitVec.ofNat 8 p.toNat } }

/-- 43_field_decoder.md (R120, R131): `DECODE` is its seven fields and the time of the decode. -/
def Obligations.DecodeIsItsFieldsTogether : Prop :=
  ∀ (s : State) (p : DecPacket) (now : Timestamp), ∃ t : State,
    runAll [.fieldHumidity p, .fieldPad p, .fieldTemp p, .fieldChannel p, .fieldUnused26 p, .fieldBattery p, .fieldId p] s
        = .next t
    ∧ exec (.decode p now) s = .next { t with reading := { t.reading with timestamp := now } }

/-- 43_field_decoder.md (R130): the round trip, whatever the unused bits hold. -/
def Obligations.PackedFieldsDecodeBack : Prop :=
  ∀ (id : BitVec 8) (battery u : BitVec 1) (channel : BitVec 2) (tempRaw : BitVec 12) (pad : BitVec 4)
    (humidity : BitVec 8) (now : Timestamp),
    readingOf config (pack id battery u channel tempRaw pad humidity) now
      = { timestamp := now, id := id, battery := decide (battery = 1), channel := channel, tempRaw := tempRaw,
          humidity := humidity }

/-- 43_field_decoder.md (R128): words of any width that agree on the bits of the fields decode alike, so bit 26, bits 11
to 8 and every bit from 36 up are ignored. -/
def Obligations.UnusedBitsAreIgnored : Prop :=
  ∀ (n m : Nat) (p : BitVec n) (q : BitVec m) (now : Timestamp),
    (∀ j, j < 36 → j ≠ 26 → ¬ (8 ≤ j ∧ j ≤ 11) → p.getLsbD j = q.getLsbD j) →
    readingOf config p now = readingOf config q now

/-- 43_field_decoder.md (R124, R125; decisions D16, D18, log 14): the temperature is `temp_raw / 10`, `temp_raw div
10` whole degrees and `temp_raw mod 10` tenths, from 0 to 409.5; under `TEMP_SIGNED` from -204.8 to 204.7. -/
def Obligations.TemperatureIsTempRawTenths : Prop :=
  ∀ r : Reading,
    r.temperature config = (r.tempWhole : Rat) + (r.tempTenth : Rat) / 10
    ∧ r.tempTenth < 10 ∧ 0 ≤ r.temperature config ∧ r.temperature config ≤ 4095 / 10
    ∧ ∀ c : Config, c.tempSigned = true → -2048 ≤ tempTenths c r.tempRaw ∧ tempTenths c r.tempRaw ≤ 2047

/-- 10_state.md sections 1 and 2, 43_field_decoder.md R120: the frame. The commands and the rows leave the decoder's
outputs; the decoder's operations leave the five registers; no operation touches what waits behind it. -/
def Obligations.FrameOfTheTwoComponents : Prop :=
  ∀ (i : Instr) (s t : State), exec i s = .next t →
    t.inputs = s.inputs
    ∧ (isDecoderOp i = false → t.reading = s.reading)
    ∧ (isDecoderOp i = true → t.tuple = s.tuple)

/-- 70_reset_and_hazards.md section 1 (R156; `LAST_TS_RESET = 0` is decision D7, log 8): the first `LOW` after `RESET`
is measured from `LAST_TS_RESET`. -/
def Obligations.FirstLowAfterResetIsMeasuredFromZero : Prop :=
  ∀ (s : State) (ts : Timestamp), ∃ t : State,
    runAll [.reset, .edge ts .low] s = .next t ∧ t.lastTs = ts
    ∧ (t.state = .searchSyncLow ↔ 201 ≤ ts.toNat ∧ ts.toNat ≤ 799)
    ∧ (t.state = .searchSyncHigh ↔ ts.toNat ≤ 200 ∨ 800 ≤ ts.toNat)

/-- 10_state.md section 4 (R23): the invariant holds after reset. -/
def Obligations.ResetMeetsTheInvariant : Prop := State.reset.Inv

/-- 10_state.md section 4 (R23 (a) to (d)): every step from a state that meets the invariant, reachable or not, keeps
it. -/
def Obligations.EveryStepKeepsTheInvariant : Prop :=
  ∀ s t : State, s.Inv → step s = .next t → t.Inv

/-- 70_reset_and_hazards.md section 3 (R160) and 41_assembler.md sections 6 and 8 (R103, decision D10, log 10; R106):
while no completed packet is re-armed without a reset, no step stops, and the next step cannot either. `Armed` does
not shut out `Idle` and the reserved codes: that no step stops there is R104 of section 7, decision D12 (log 16). That
`RESET` clears `bit_count` is decision D7 (log 8). -/
def Obligations.NoOverrunWithoutABareRearm : Prop :=
  ∀ s : State, s.Armed →
    (∀ r rest, s.inputs = r :: rest → decode r = .rearm → s.enable = true ∨ s.bitCount.toNat < 36) →
    ∃ t, step s = .next t ∧ t.Armed

/-- 60_exceptions.md section 7 (R152), column "gets back": a poll answers whether a packet is ready, a take the packet
or the part read while it is ready, a decode the reading of its word, the other interactions nothing; the two reads
and the decode leave the registers. A take while `enable = 1` answers too, with some value that nothing here
constrains (70_reset_and_hazards.md section 3, R158; U19; log 26). That the packet's fields stand where they do is
43_field_decoder.md (decisions D17, D25, D28; logs 13, 22); that `REARM` writes `enable` alone is D14 (log 17), that
`RESET` arms the block D7 (log 8). -/
def Obligations.EnvironmentGetsBackWhatTheTableSays : Prop :=
  ∀ (e : Environment) (s : State),
    (Act.poll.answer e s = .ready true ↔ s.enable = false) ∧ (Act.poll.answer e s = .ready false ↔ s.enable = true)
    ∧ (s.enable = false → (Act.take (BitVec.allOnes 36)).answer e s = .packet s.acc)
    ∧ (s.enable = false → ∀ part, ∃ bits : Acc, (Act.take part).answer e s = .packet bits
        ∧ ∀ j, bits.getLsbD j = (s.acc.getLsbD j && part.getLsbD j))
    ∧ (s.enable = true → ∀ part, ∃ seen : Acc, (Act.take part).answer e s = .packet (seen &&& part))
    ∧ (∀ p now, ∃ t, (Act.decode p now).perform s = .next t ∧ (Act.decode p now).answer e s = .reading t.reading
        ∧ t.tuple = s.tuple)
    ∧ (∀ ts level time, (Act.edge ts level time).answer e s = .nothing
        ∧ (Act.edge ts level time).perform s = exec (.edge ts level) s)
    ∧ Act.rearm.answer e s = .nothing ∧ Act.rearm.perform s = .next { s with enable := true }
    ∧ Act.reset.answer e s = .nothing ∧ (∃ t, Act.reset.perform s = .next t ∧ t.enable = true)
    ∧ Act.poll.perform s = .next s ∧ ∀ part, (Act.take part).perform s = .next s

/-- 20_memory.md sections 3 and 4 (R35, R38) and 60_exceptions.md section 7 (R152): whatever the environment does,
while a packet is ready the bits read of it are the packet's, in whatever parts and order and with whatever edges
between; and it starts so. What the environment keeps of its own is the model's choice (log 25). -/
def Obligations.EveryInteractionKeepsWhatWasTaken : Prop :=
  (∀ loss, (Environment.start loss).Agrees State.reset)
  ∧ ∀ (e : Environment) (s t : State) (a : Act), e.Agrees s → a.perform s = .next t → (e.after a s t).Agrees t

/-- 60_exceptions.md section 7 (R152) and 70_reset_and_hazards.md section 3 (R158, R165): a reader decodes, when its duty
lets it decode, exactly the packet that the block holds, and at most once per completed packet: a decode is noted, the
duty lets no noted packet be decoded again, and of all interactions only the edge that completes the next packet clears
the note. What it keeps of its own is the model's choice (log 25). -/
def Obligations.DutifulDecodeReadsThePacketHeld : Prop :=
  ∀ (e : Environment) (s : State), e.Agrees s →
    (∀ p now, readerDuty e (.decode p now) s = true →
      (Act.decode p now).answer e s = .reading (readingOf config s.acc now) ∧ s.enable = false
        ∧ ∀ t, (Act.decode p now).perform s = .next t → (e.after (.decode p now) s t).decoded = true)
    ∧ (e.decoded = true → ∀ p now, readerDuty e (.decode p now) s = false)
    ∧ ∀ a t, a.perform s = .next t → e.decoded = true → (e.after a s t).decoded = false →
        (∃ ts time, a = .edge ts .high time) ∧ s.bitCount = 35 ∧ t.bitCount = 36 ∧ t.ready = true

/-- 70_reset_and_hazards.md section 3 (R158), "check flag false → read accumulator → set flag true", with
60_exceptions.md section 7 (R152), rows "take packet" and "re-arm": a take only after a poll has found the packet
ready, which every completion, `REARM` and `RESET` asks for anew; a `REARM` only after the reader has finished
reading, and then it has the packet; once per packet; and with a packet read it is allowed with no `RESET` before,
which is only preferred. That a `RESET` allows one `REARM` more, of the start-up, is the model's reading of
70_reset_and_hazards.md R157 (log 25). -/
def Obligations.ReaderRearmsOncePerPacketReadWhole : Prop :=
  ∀ (e : Environment) (s : State), e.Agrees s →
    (∀ part, readerDuty e (.take part) s = true ↔ e.checked = true)
    ∧ (e.checked = true → s.enable = false)
    ∧ (∀ a t, a.perform s = .next t →
        (e.checked = false → (e.after a s t).checked = true → a = .poll ∧ s.enable = false)
        ∧ (a = .rearm ∨ a = .reset ∨ s.enable = true ∧ t.enable = false → (e.after a s t).checked = false))
    ∧ (s.enable = false → (readerDuty e .rearm s = true ↔ e.taken = BitVec.allOnes 36))
    ∧ (s.enable = false → readerDuty e .rearm s = true → e.packet = s.acc)
    ∧ (∀ t u, (e.after .rearm s t).mayRearm = false ∧ readerDuty (e.after .rearm s t) .rearm u = false)
    ∧ (e.mayRearm = false → readerDuty e .rearm s = false)
    ∧ ∀ a t, a.perform s = .next t → e.mayRearm = false → (e.after a s t).mayRearm = true →
        a = .reset ∨ ((∃ ts time, a = .edge ts .high time) ∧ s.bitCount = 35 ∧ t.bitCount = 36 ∧ t.ready = true)
end

