-- ==== Sys2Proof/Laws/Encoding.lean ====
section
/-! SUPPORT. The fields of a word built from its fields (30_encoding.md R46, R48, R51), and the row a dispatch word of
known `enable`, `state` and `level` selects (R52). -/

namespace Sys2Proof.Machine

@[simp] theorem levelOf_levelCode (l : Level) : levelOf (levelCode l) = l := by
  cases l <;> rfl

@[simp] theorem levelCode_levelOf (b : BitVec 1) : levelCode (levelOf b) = b := by
  revert b; decide

@[simp] theorem stateOf_stateCode (st : DecState) : stateOf (stateCode st) = st := by
  cases st <;> rfl

@[simp] theorem stateCode_stateOf (b : BitVec 3) : stateCode (stateOf b) = b := by
  revert b; decide

theorem cmdWord_getLsbD (code : BitVec 2) (level : BitVec 1) (ts : Timestamp) (i : Nat) :
    (cmdWord code level ts).getLsbD i
      = if i < 32 then ts.getLsbD i
        else if i - 32 < 1 then level.getLsbD (i - 32) else code.getLsbD (i - 32 - 1) := by
  unfold cmdWord
  refine (BitVec.getLsbD_append ..).trans ?_
  rw [BitVec.getLsbD_append]

@[simp] theorem cmdCode_cmdWord (code : BitVec 2) (level : BitVec 1) (ts : Timestamp) :
    cmdCode (cmdWord code level ts) = code := by
  apply BitVec.eq_of_getLsbD_eq
  intro i hi
  have h1 : ¬ 33 + i < 32 := by omega
  have h2 : ¬ 33 + i - 32 < 1 := by omega
  have h3 : 33 + i - 32 - 1 = i := by omega
  simp only [cmdCode, BitVec.getLsbD_extractLsb', cmdWord_getLsbD, hi, h1, h2, h3, if_false, decide_true, Bool.true_and]

@[simp] theorem cmdLevel_cmdWord (code : BitVec 2) (level : BitVec 1) (ts : Timestamp) :
    cmdLevel (cmdWord code level ts) = levelOf level := by
  unfold cmdLevel
  congr 1
  apply BitVec.eq_of_getLsbD_eq
  intro i hi
  obtain rfl : i = 0 := by omega
  simp only [BitVec.getLsbD_extractLsb', cmdWord_getLsbD]
  simp

@[simp] theorem cmdTs_cmdWord (code : BitVec 2) (level : BitVec 1) (ts : Timestamp) :
    cmdTs (cmdWord code level ts) = ts := by
  apply BitVec.eq_of_getLsbD_eq
  intro i hi
  simp [cmdTs, cmdWord_getLsbD, hi]

@[simp] theorem dispatchEnable_pack (e : Bool) (st : DecState) (l : Level) (h w o z : Bool) :
    dispatchEnable (dispatchPack e st l h w o z) = e := by
  cases e <;> cases st <;> cases l <;> cases h <;> cases w <;> cases o <;> cases z <;> rfl

@[simp] theorem dispatchState_pack (e : Bool) (st : DecState) (l : Level) (h w o z : Bool) :
    dispatchState (dispatchPack e st l h w o z) = st := by
  cases e <;> cases st <;> cases l <;> cases h <;> cases w <;> cases o <;> cases z <;> rfl

/-- The row of an edge of a disabled block. -/
theorem selectRow_disabled (st : DecState) (l : Level) (h w o z : Bool) :
    selectRow (dispatchPack false st l h w o z) = .guard := by
  cases st <;> cases l <;> cases h <;> cases w <;> cases o <;> cases z <;> rfl

/-- The row of an edge of an enabled block, state by state. -/
theorem selectRow_enabled (st : DecState) (l : Level) (h w o z : Bool) :
    selectRow (dispatchPack true st l h w o z) = match st, l with
      | .searchSyncHigh, .low => if h then .sshLFit else .sshLMiss
      | .searchSyncHigh, .high => .sshH
      | .searchSyncLow, .high => if w then .sslHFit else .sslHMiss
      | .searchSyncLow, .low => .sslL
      | .readBitStart, .low => .rbsL
      | .readBitStart, .high => .rbsH
      | .readBitEnd, .high => if z then .rbeHZero else if o then .rbeHOne else .rbeHMiss
      | .readBitEnd, .low => .rbeL
      | .idle, _ => .idleAny
      | .rsvd5, _ => .rsvd5
      | .rsvd6, _ => .rsvd67
      | .rsvd7, _ => .rsvd67 := by
  cases st <;> cases l <;> cases h <;> cases w <;> cases o <;> cases z <;> rfl

end Sys2Proof.Machine
end

