-- ==== Sys2Proof/Laws/State.lean ====
section
/-! SUPPORT. What each setter leaves in each field. -/

namespace Sys2Proof.Machine

variable (s : State)

@[simp] theorem State.setState_state (v : DecState) : (s.setState v).state = v := rfl
@[simp] theorem State.setState_acc (v : DecState) : (s.setState v).acc = s.acc := rfl
@[simp] theorem State.setState_bitCount (v : DecState) : (s.setState v).bitCount = s.bitCount := rfl
@[simp] theorem State.setState_lastTs (v : DecState) : (s.setState v).lastTs = s.lastTs := rfl
@[simp] theorem State.setState_enable (v : DecState) : (s.setState v).enable = s.enable := rfl
@[simp] theorem State.setState_inputs (v : DecState) : (s.setState v).inputs = s.inputs := rfl
@[simp] theorem State.setState_reading (v : DecState) : (s.setState v).reading = s.reading := rfl

@[simp] theorem State.setAcc_state (v : Acc) : (s.setAcc v).state = s.state := rfl
@[simp] theorem State.setAcc_acc (v : Acc) : (s.setAcc v).acc = v := rfl
@[simp] theorem State.setAcc_bitCount (v : Acc) : (s.setAcc v).bitCount = s.bitCount := rfl
@[simp] theorem State.setAcc_lastTs (v : Acc) : (s.setAcc v).lastTs = s.lastTs := rfl
@[simp] theorem State.setAcc_enable (v : Acc) : (s.setAcc v).enable = s.enable := rfl
@[simp] theorem State.setAcc_inputs (v : Acc) : (s.setAcc v).inputs = s.inputs := rfl
@[simp] theorem State.setAcc_reading (v : Acc) : (s.setAcc v).reading = s.reading := rfl

@[simp] theorem State.setBitCount_state (v : Count) : (s.setBitCount v).state = s.state := rfl
@[simp] theorem State.setBitCount_acc (v : Count) : (s.setBitCount v).acc = s.acc := rfl
@[simp] theorem State.setBitCount_bitCount (v : Count) : (s.setBitCount v).bitCount = v := rfl
@[simp] theorem State.setBitCount_lastTs (v : Count) : (s.setBitCount v).lastTs = s.lastTs := rfl
@[simp] theorem State.setBitCount_enable (v : Count) : (s.setBitCount v).enable = s.enable := rfl
@[simp] theorem State.setBitCount_inputs (v : Count) : (s.setBitCount v).inputs = s.inputs := rfl
@[simp] theorem State.setBitCount_reading (v : Count) : (s.setBitCount v).reading = s.reading := rfl

@[simp] theorem State.setLastTs_state (v : Timestamp) : (s.setLastTs v).state = s.state := rfl
@[simp] theorem State.setLastTs_acc (v : Timestamp) : (s.setLastTs v).acc = s.acc := rfl
@[simp] theorem State.setLastTs_bitCount (v : Timestamp) : (s.setLastTs v).bitCount = s.bitCount := rfl
@[simp] theorem State.setLastTs_lastTs (v : Timestamp) : (s.setLastTs v).lastTs = v := rfl
@[simp] theorem State.setLastTs_enable (v : Timestamp) : (s.setLastTs v).enable = s.enable := rfl
@[simp] theorem State.setLastTs_inputs (v : Timestamp) : (s.setLastTs v).inputs = s.inputs := rfl
@[simp] theorem State.setLastTs_reading (v : Timestamp) : (s.setLastTs v).reading = s.reading := rfl

@[simp] theorem State.setEnable_state (v : Bool) : (s.setEnable v).state = s.state := rfl
@[simp] theorem State.setEnable_acc (v : Bool) : (s.setEnable v).acc = s.acc := rfl
@[simp] theorem State.setEnable_bitCount (v : Bool) : (s.setEnable v).bitCount = s.bitCount := rfl
@[simp] theorem State.setEnable_lastTs (v : Bool) : (s.setEnable v).lastTs = s.lastTs := rfl
@[simp] theorem State.setEnable_enable (v : Bool) : (s.setEnable v).enable = v := rfl
@[simp] theorem State.setEnable_inputs (v : Bool) : (s.setEnable v).inputs = s.inputs := rfl
@[simp] theorem State.setEnable_reading (v : Bool) : (s.setEnable v).reading = s.reading := rfl

@[simp] theorem State.setInputs_state (v : List Request) : (s.setInputs v).state = s.state := rfl
@[simp] theorem State.setInputs_acc (v : List Request) : (s.setInputs v).acc = s.acc := rfl
@[simp] theorem State.setInputs_bitCount (v : List Request) : (s.setInputs v).bitCount = s.bitCount := rfl
@[simp] theorem State.setInputs_lastTs (v : List Request) : (s.setInputs v).lastTs = s.lastTs := rfl
@[simp] theorem State.setInputs_enable (v : List Request) : (s.setInputs v).enable = s.enable := rfl
@[simp] theorem State.setInputs_inputs (v : List Request) : (s.setInputs v).inputs = v := rfl
@[simp] theorem State.setInputs_reading (v : List Request) : (s.setInputs v).reading = s.reading := rfl

@[simp] theorem State.setReading_state (v : Reading) : (s.setReading v).state = s.state := rfl
@[simp] theorem State.setReading_acc (v : Reading) : (s.setReading v).acc = s.acc := rfl
@[simp] theorem State.setReading_bitCount (v : Reading) : (s.setReading v).bitCount = s.bitCount := rfl
@[simp] theorem State.setReading_lastTs (v : Reading) : (s.setReading v).lastTs = s.lastTs := rfl
@[simp] theorem State.setReading_enable (v : Reading) : (s.setReading v).enable = s.enable := rfl
@[simp] theorem State.setReading_inputs (v : Reading) : (s.setReading v).inputs = s.inputs := rfl
@[simp] theorem State.setReading_reading (v : Reading) : (s.setReading v).reading = v := rfl

@[simp] theorem State.tuple_setInputs (v : List Request) : (s.setInputs v).tuple = s.tuple := rfl
@[simp] theorem State.tuple_setReading (v : Reading) : (s.setReading v).tuple = s.tuple := rfl

end Sys2Proof.Machine
end

