-- ==== Sys2Proof/Laws/Ops.lean ====
section
/-! SUPPORT. What each shared operation can do, said once. -/

namespace Sys2Proof.Machine

/-- An append below the 36th bit (41_assembler.md R101). -/
theorem append_next (c : Config) (b : Bool) (s : State) (h : s.bitCount.toNat < 35) :
    append c b s = .next { s with acc := accWithBit b s, bitCount := s.bitCount + 1, state := .readBitStart } := by
  have h1 : s.bitCount.toNat < nbits := by unfold nbits; omega
  have h2 : s.bitCount.toNat + 1 ≠ nbits := by unfold nbits; omega
  simp only [append, h1, h2, if_true, if_false]
  rfl

/-- The completing append (41_assembler.md R102). -/
theorem append_completes (c : Config) (b : Bool) (s : State) (h : s.bitCount.toNat = 35) :
    append c b s
      = .next { s with acc := accWithBit b s, bitCount := s.bitCount + 1, enable := false, state := c.sDone } := by
  have h1 : s.bitCount.toNat < nbits := by unfold nbits; omega
  have h2 : s.bitCount.toNat + 1 = nbits := by unfold nbits; omega
  simp only [append, h1, h2, if_true]
  rfl

/-- The append that has no meaning (41_assembler.md R103). -/
theorem append_overruns (c : Config) (b : Bool) (s : State) (h : 36 ≤ s.bitCount.toNat) :
    append c b s = .fault .overrun := by
  have h1 : ¬ s.bitCount.toNat < nbits := by unfold nbits; omega
  simp only [append, h1, if_false]

/-- All an append can do. -/
theorem append_cases (c : Config) (b : Bool) (s : State) :
    (36 ≤ s.bitCount.toNat ∧ append c b s = .fault .overrun)
    ∨ (s.bitCount.toNat = 35 ∧ append c b s
        = .next { s with acc := accWithBit b s, bitCount := s.bitCount + 1, enable := false, state := c.sDone })
    ∨ (s.bitCount.toNat < 35 ∧ append c b s
        = .next { s with acc := accWithBit b s, bitCount := s.bitCount + 1, state := .readBitStart }) := by
  rcases Nat.lt_trichotomy s.bitCount.toNat 35 with h | h | h
  · exact .inr (.inr ⟨h, append_next c b s h⟩)
  · exact .inr (.inl ⟨h, append_completes c b s h⟩)
  · exact .inl ⟨h, append_overruns c b s h⟩

/-- Appending a zero sets no bit. -/
theorem accWithBit_false (s : State) : accWithBit false s = s.acc := by
  simp [accWithBit]

/-- The word a row is performed with. -/
theorem selects_iff (r : Row) (dw : DispatchWord) (s : State) :
    selects r dw s = true
      ↔ dw &&& rowMask r = rowMatch r ∧ dispatchEnable dw = s.enable ∧ dispatchState dw = s.state := by
  simp [selects, rowMatches, and_assoc]

theorem whenSelected_true (r : Row) (dw : DispatchWord) (s : State) (o : Result) (h : selects r dw s = true) :
    whenSelected r dw s o = o := by
  simp only [whenSelected, h, if_true]

theorem whenSelected_false (r : Row) (dw : DispatchWord) (s : State) (o : Result) (h : selects r dw s = false) :
    whenSelected r dw s o = .next s := by
  simp [whenSelected, h]

/-- All a row presented by itself can do. -/
theorem whenSelected_cases (r : Row) (dw : DispatchWord) (s : State) (o : Result) :
    (selects r dw s = true ∧ whenSelected r dw s o = o)
    ∨ (selects r dw s = false ∧ whenSelected r dw s o = .next s) := by
  cases h : selects r dw s
  · exact .inr ⟨rfl, whenSelected_false r dw s o h⟩
  · exact .inl ⟨rfl, whenSelected_true r dw s o h⟩

/-- A dispatch word of a row's pattern carries the pattern's `enable`, if the mask tests that bit. -/
theorem dispatchEnable_of_match (dw m v : DispatchWord) (h : dw &&& m = v) (hm : m.getLsbD 8 = true) :
    dispatchEnable dw = v.getLsbD 8 := by
  have h8 : (dw &&& m).getLsbD 8 = v.getLsbD 8 := by rw [h]
  rw [BitVec.getLsbD_and, hm, Bool.and_true] at h8
  exact h8

/-- A dispatch word of a row's pattern carries the pattern's `state`, if the mask tests those bits. -/
theorem dispatchState_of_match (dw m v : DispatchWord) (h : dw &&& m = v) (hm : m.extractLsb' 5 3 = BitVec.allOnes 3) :
    dispatchState dw = stateOf (v.extractLsb' 5 3) := by
  have h5 : (dw &&& m).extractLsb' 5 3 = v.extractLsb' 5 3 := by rw [h]
  rw [BitVec.extractLsb'_and, hm, BitVec.and_allOnes] at h5
  rw [dispatchState, h5]

end Sys2Proof.Machine
end

