-- ==== Sys2Proof/Laws/Assembler.lean ====
section
/-! SUPPORT. The row an `EDGE` performs, for every choice of the parameters (41_assembler.md R85). -/

namespace Sys2Proof.Machine

variable (c : Config) (ts : Timestamp) (level : Level) (s : State)

/-- An edge of a disabled block performs the guard. -/
theorem edge_disabled (he : s.enable = false) : edge c ts level s = rowGuard s := by
  simp only [edge, dispatchWord, he, selectRow_disabled, performRow]

/-- An edge of an enabled block performs the row of its state, its level and the fits that state consults. -/
theorem edge_enabled (he : s.enable = true) :
    edge c ts level s = match s.state, level with
      | .searchSyncHigh, .low =>
        if fitSyncHigh c (duration ts s.lastTs) then rowSshLFit ts s else rowSshLMiss ts s
      | .searchSyncHigh, .high => rowSshH ts s
      | .searchSyncLow, .high => if fitSyncLow c (duration ts s.lastTs) then rowSslHFit ts s else rowSslHMiss ts s
      | .searchSyncLow, .low => rowSslL ts s
      | .readBitStart, .low => rowRbsL ts s
      | .readBitStart, .high => rowRbsH ts s
      | .readBitEnd, .high =>
        if fitZero c (duration ts s.lastTs) then rowRbeHZero c ts s
        else if fitOne c (duration ts s.lastTs) then rowRbeHOne c ts s else rowRbeHMiss ts s
      | .readBitEnd, .low => rowRbeL ts s
      | .idle, _ => rowIdleAny ts s
      | .rsvd5, _ => rowRsvd5 ts s
      | .rsvd6, _ => rowRsvd67 ts s
      | .rsvd7, _ => rowRsvd67 ts s := by
  simp only [edge, dispatchWord, he, selectRow_enabled]
  cases s.state <;> cases level <;> simp only [performRow] <;> (repeat' split) <;> simp_all

theorem edge_sshLow (he : s.enable = true) (hs : s.state = .searchSyncHigh) :
    edge c ts .low s = if fitSyncHigh c (duration ts s.lastTs) then rowSshLFit ts s else rowSshLMiss ts s := by
  rw [edge_enabled c ts .low s he, hs]

theorem edge_sshHigh (he : s.enable = true) (hs : s.state = .searchSyncHigh) :
    edge c ts .high s = rowSshH ts s := by
  rw [edge_enabled c ts .high s he, hs]

theorem edge_sslHigh (he : s.enable = true) (hs : s.state = .searchSyncLow) :
    edge c ts .high s = if fitSyncLow c (duration ts s.lastTs) then rowSslHFit ts s else rowSslHMiss ts s := by
  rw [edge_enabled c ts .high s he, hs]

theorem edge_sslLow (he : s.enable = true) (hs : s.state = .searchSyncLow) :
    edge c ts .low s = rowSslL ts s := by
  rw [edge_enabled c ts .low s he, hs]

theorem edge_rbsLow (he : s.enable = true) (hs : s.state = .readBitStart) :
    edge c ts .low s = rowRbsL ts s := by
  rw [edge_enabled c ts .low s he, hs]

theorem edge_rbsHigh (he : s.enable = true) (hs : s.state = .readBitStart) :
    edge c ts .high s = rowRbsH ts s := by
  rw [edge_enabled c ts .high s he, hs]

theorem edge_rbeHigh (he : s.enable = true) (hs : s.state = .readBitEnd) :
    edge c ts .high s = if fitZero c (duration ts s.lastTs) then rowRbeHZero c ts s
      else if fitOne c (duration ts s.lastTs) then rowRbeHOne c ts s else rowRbeHMiss ts s := by
  rw [edge_enabled c ts .high s he, hs]

theorem edge_rbeLow (he : s.enable = true) (hs : s.state = .readBitEnd) :
    edge c ts .low s = rowRbeL ts s := by
  rw [edge_enabled c ts .low s he, hs]

/-- A row presented with a word of its own pattern is selected where the registers hold the pattern's `enable` and
`state`. (Not for `RSVD_67`, whose mask leaves a bit of `state` open.) -/
theorem selects_of_match (r : Row) (dw : DispatchWord) (hm : dw &&& rowMask r = rowMatch r)
    (h8 : (rowMask r).getLsbD 8 = true) (h5 : (rowMask r).extractLsb' 5 3 = BitVec.allOnes 3)
    (he : s.enable = (rowMatch r).getLsbD 8) (hs : s.state = stateOf ((rowMatch r).extractLsb' 5 3)) :
    selects r dw s = true :=
  (selects_iff r dw s).2
    ⟨hm, (dispatchEnable_of_match _ _ _ hm h8).trans he.symm, (dispatchState_of_match _ _ _ hm h5).trans hs.symm⟩

end Sys2Proof.Machine
end

