-- ==== Sys2Proof/Laws/Exec.lean ====
section
/-! SUPPORT. All that one operation can do, said once (`Effect`), and what a step does with the queue. -/

namespace Sys2Proof.Machine

/-- An edge, or a row presented by itself, at the time `ts`. -/
def IsEdgeAt (i : Instr) (ts : Timestamp) : Prop :=
  (∃ level, i = .edge ts level) ∨ ∃ dw r, i = rowInstr dw ts r

/-- An operation that acquires the synchronisation at the time `ts`, given an enabled `SearchSyncLow`. -/
def IsAcquireAt (i : Instr) (ts : Timestamp) (s : State) : Prop :=
  (i = .edge ts .high ∧ fitSyncLow config (duration ts s.lastTs) = true) ∨ ∃ dw, i = .sslHFit dw ts

/-- An operation that appends the bit at the time `ts`, given an enabled `ReadBitEnd`. -/
def IsAppendAt (i : Instr) (ts : Timestamp) (s : State) : Bool → Prop
  | false => (i = .edge ts .high ∧ fitZero config (duration ts s.lastTs) = true) ∨ ∃ dw, i = .rbeHZero dw ts
  | true => (i = .edge ts .high ∧ fitOne config (duration ts s.lastTs) = true) ∨ ∃ dw, i = .rbeHOne dw ts

/-- What an operation `i` in a state `s` can end in. -/
inductive Effect (i : Instr) (s : State) : Result → Prop where
  | none : (∀ ts level, i = .edge ts level → s.enable = false) → Effect i s (.next s)
  | rearm : i = .rearm → Effect i s (.next { s with enable := true })
  | reset : i = .reset → Effect i s (.next (resetRegisters config s))
  | output (r : Reading) : isDecoderOp i = true → Effect i s (.next { s with reading := r })
  | held (ts : Timestamp) : IsEdgeAt i ts → s.enable = true → Effect i s (.next { s with lastTs := ts })
  | aborted (ts : Timestamp) : IsEdgeAt i ts → s.enable = true →
      Effect i s (.next { s with state := .searchSyncHigh, lastTs := ts })
  | syncHigh (ts : Timestamp) : IsEdgeAt i ts → s.enable = true → s.state = .searchSyncHigh →
      Effect i s (.next { s with state := .searchSyncLow, lastTs := ts })
  | acquired (ts : Timestamp) : IsEdgeAt i ts → IsAcquireAt i ts s → s.enable = true → s.state = .searchSyncLow →
      Effect i s (.next { s with state := .readBitStart, acc := 0, bitCount := 0, lastTs := ts })
  | opened (ts : Timestamp) : IsEdgeAt i ts → s.enable = true → s.state = .readBitStart →
      Effect i s (.next { s with state := .readBitEnd, lastTs := ts })
  | appended (ts : Timestamp) (b : Bool) : IsEdgeAt i ts → IsAppendAt i ts s b → s.enable = true → s.state = .readBitEnd →
      Effect i s (append config b { s with lastTs := ts })

theorem IsEdgeAt.edge (ts : Timestamp) (level : Level) : IsEdgeAt (.edge ts level) ts := .inl ⟨level, rfl⟩

theorem IsEdgeAt.row (dw : DispatchWord) (ts : Timestamp) (r : Row) : IsEdgeAt (rowInstr dw ts r) ts :=
  .inr ⟨dw, r, rfl⟩

/-- An edge of an enabled block. -/
theorem edge_effect (ts : Timestamp) (level : Level) (s : State) (he : s.enable = true) :
    Effect (.edge ts level) s (edge config ts level s) := by
  have hi := IsEdgeAt.edge ts level
  cases hs : s.state <;> cases level
  case searchSyncHigh.low =>
    rw [edge_sshLow _ _ _ he hs]; split
    · exact .syncHigh ts hi he hs
    · exact .aborted ts hi he
  case searchSyncLow.high =>
    rw [edge_sslHigh _ _ _ he hs]; split
    · exact .acquired ts hi (.inl ⟨rfl, ‹_›⟩) he hs
    · exact .aborted ts hi he
  case readBitStart.low => rw [edge_rbsLow _ _ _ he hs]; exact .opened ts hi he hs
  case readBitEnd.high =>
    rw [edge_rbeHigh _ _ _ he hs]; split
    · exact .appended ts false hi (.inl ⟨rfl, ‹_›⟩) he hs
    · split
      · exact .appended ts true hi (.inl ⟨rfl, ‹_›⟩) he hs
      · exact .aborted ts hi he
  all_goals rw [edge_enabled _ _ _ _ he, hs]; exact .held ts hi he

/-- The registers a selected row finds. -/
theorem registers_of_selects (r : Row) (dw : DispatchWord) (s : State) (h : selects r dw s = true)
    (h8 : (rowMask r).getLsbD 8 = true) (h5 : (rowMask r).extractLsb' 5 3 = BitVec.allOnes 3) :
    s.enable = (rowMatch r).getLsbD 8 ∧ s.state = stateOf ((rowMatch r).extractLsb' 5 3) := by
  obtain ⟨hm, he, hs⟩ := (selects_iff r dw s).1 h
  exact ⟨he.symm.trans (dispatchEnable_of_match _ _ _ hm h8), hs.symm.trans (dispatchState_of_match _ _ _ hm h5)⟩

/-- A selected row but the guard finds the block enabled. -/
theorem enable_of_selects (r : Row) (dw : DispatchWord) (s : State) (h : selects r dw s = true)
    (h8 : (rowMask r).getLsbD 8 = true) : s.enable = (rowMatch r).getLsbD 8 := by
  obtain ⟨hm, he, -⟩ := (selects_iff r dw s).1 h
  exact he.symm.trans (dispatchEnable_of_match _ _ _ hm h8)

/-- A row presented by itself. -/
theorem row_effect (r : Row) (dw : DispatchWord) (ts : Timestamp) (s : State) :
    Effect (rowInstr dw ts r) s (exec (rowInstr dw ts r) s) := by
  have hi := IsEdgeAt.row dw ts r
  have hn : ∀ ts' level, rowInstr dw ts r = .edge ts' level → s.enable = false := by cases r <;> nofun
  have key : exec (rowInstr dw ts r) s = whenSelected r dw s (performRow config r ts s) := by cases r <;> rfl
  rw [key]
  obtain ⟨hsel, ho⟩ | ⟨-, ho⟩ := whenSelected_cases r dw s (performRow config r ts s)
  · rw [ho]
    cases r
    case guard => exact .none hn
    case sshLFit =>
      obtain ⟨he, hs⟩ := registers_of_selects _ _ _ hsel rfl rfl
      exact .syncHigh ts hi he hs
    case sslHFit =>
      obtain ⟨he, hs⟩ := registers_of_selects _ _ _ hsel rfl rfl
      exact .acquired ts hi (.inr ⟨dw, rfl⟩) he hs
    case rbsL =>
      obtain ⟨he, hs⟩ := registers_of_selects _ _ _ hsel rfl rfl
      exact .opened ts hi he hs
    case rbeHZero =>
      obtain ⟨he, hs⟩ := registers_of_selects _ _ _ hsel rfl rfl
      exact .appended ts false hi (.inr ⟨dw, rfl⟩) he hs
    case rbeHOne =>
      obtain ⟨he, hs⟩ := registers_of_selects _ _ _ hsel rfl rfl
      exact .appended ts true hi (.inr ⟨dw, rfl⟩) he hs
    case sshLMiss => exact .aborted ts hi (enable_of_selects _ _ _ hsel rfl)
    case sslHMiss => exact .aborted ts hi (enable_of_selects _ _ _ hsel rfl)
    case rbeHMiss => exact .aborted ts hi (enable_of_selects _ _ _ hsel rfl)
    all_goals exact .held ts hi (enable_of_selects _ _ _ hsel rfl)
  · rw [ho]
    exact .none hn

/-- Every operation. -/
theorem exec_effect (i : Instr) (s : State) : Effect i s (exec i s) := by
  cases i
  case nop => exact .none nofun
  case rearm => exact .rearm rfl
  case reset => exact .reset rfl
  case edge ts level =>
    cases he : s.enable
    · rw [show exec (.edge ts level) s = .next s from edge_disabled _ _ _ _ he]
      exact .none fun _ _ _ => he
    · exact edge_effect ts level s he
  case guard dw ts => exact row_effect .guard dw ts s
  case sshLFit dw ts => exact row_effect .sshLFit dw ts s
  case sshLMiss dw ts => exact row_effect .sshLMiss dw ts s
  case sshH dw ts => exact row_effect .sshH dw ts s
  case sslHFit dw ts => exact row_effect .sslHFit dw ts s
  case sslHMiss dw ts => exact row_effect .sslHMiss dw ts s
  case sslL dw ts => exact row_effect .sslL dw ts s
  case rbsL dw ts => exact row_effect .rbsL dw ts s
  case rbsH dw ts => exact row_effect .rbsH dw ts s
  case rbeHZero dw ts => exact row_effect .rbeHZero dw ts s
  case rbeHOne dw ts => exact row_effect .rbeHOne dw ts s
  case rbeHMiss dw ts => exact row_effect .rbeHMiss dw ts s
  case rbeL dw ts => exact row_effect .rbeL dw ts s
  case idleAny dw ts => exact row_effect .idleAny dw ts s
  case rsvd5 dw ts => exact row_effect .rsvd5 dw ts s
  case rsvd67 dw ts => exact row_effect .rsvd67 dw ts s
  case fieldUnused26 => exact .none nofun
  case fieldPad => exact .none nofun
  all_goals exact .output _ rfl

/-- The next states of an operation `i` in a state `s`, an append told apart by whether it completes the packet. -/
inductive NextEffect (i : Instr) (s : State) : State → Prop where
  | none : (∀ ts level, i = .edge ts level → s.enable = false) → NextEffect i s s
  | rearm : i = .rearm → NextEffect i s { s with enable := true }
  | reset : i = .reset → NextEffect i s (resetRegisters config s)
  | output (r : Reading) : isDecoderOp i = true → NextEffect i s { s with reading := r }
  | held (ts : Timestamp) : IsEdgeAt i ts → s.enable = true → NextEffect i s { s with lastTs := ts }
  | aborted (ts : Timestamp) : IsEdgeAt i ts → s.enable = true →
      NextEffect i s { s with state := .searchSyncHigh, lastTs := ts }
  | syncHigh (ts : Timestamp) : IsEdgeAt i ts → s.enable = true → s.state = .searchSyncHigh →
      NextEffect i s { s with state := .searchSyncLow, lastTs := ts }
  | acquired (ts : Timestamp) : IsEdgeAt i ts → IsAcquireAt i ts s → s.enable = true → s.state = .searchSyncLow →
      NextEffect i s { s with state := .readBitStart, acc := 0, bitCount := 0, lastTs := ts }
  | opened (ts : Timestamp) : IsEdgeAt i ts → s.enable = true → s.state = .readBitStart →
      NextEffect i s { s with state := .readBitEnd, lastTs := ts }
  | appended (ts : Timestamp) (b : Bool) : IsEdgeAt i ts → IsAppendAt i ts s b → s.enable = true → s.state = .readBitEnd →
      s.bitCount.toNat < 35 →
      NextEffect i s { s with state := .readBitStart, acc := accWithBit b s, bitCount := s.bitCount + 1, lastTs := ts }
  | completed (ts : Timestamp) (b : Bool) : IsEdgeAt i ts → IsAppendAt i ts s b → s.enable = true →
      s.state = .readBitEnd → s.bitCount.toNat = 35 →
      NextEffect i s { s with state := config.sDone, acc := accWithBit b s, bitCount := s.bitCount + 1, lastTs := ts,
                              enable := false }

/-- Every operation that answers a next state. -/
theorem exec_next (i : Instr) (s t : State) (h : exec i s = .next t) : NextEffect i s t := by
  have he := exec_effect i s
  rw [h] at he
  generalize ho : (Host.Outcome.next t : Result) = o at he
  cases he with
  | none h1 => cases ho; exact .none h1
  | rearm h1 => cases ho; exact .rearm h1
  | reset h1 => cases ho; exact .reset h1
  | output r h1 => cases ho; exact .output r h1
  | held ts h1 h2 => cases ho; exact .held ts h1 h2
  | aborted ts h1 h2 => cases ho; exact .aborted ts h1 h2
  | syncHigh ts h1 h2 h3 => cases ho; exact .syncHigh ts h1 h2 h3
  | acquired ts h1 h2 h3 h4 => cases ho; exact .acquired ts h1 h2 h3 h4
  | opened ts h1 h2 h3 => cases ho; exact .opened ts h1 h2 h3
  | appended ts b h1 h2 h3 h4 =>
    obtain ⟨-, ha⟩ | ⟨hk, ha⟩ | ⟨hk, ha⟩ := append_cases config b { s with lastTs := ts } <;> rw [ha] at ho <;> cases ho
    · exact .completed ts b h1 h2 h3 h4 hk
    · exact .appended ts b h1 h2 h3 h4 hk

/-- An operation that stops is an append at 36 bits. -/
theorem exec_stops (i : Instr) (s : State) :
    (∃ t, exec i s = .next t)
    ∨ (exec i s = .fault .overrun ∧ s.enable = true ∧ s.state = .readBitEnd ∧ 36 ≤ s.bitCount.toNat) := by
  have he := exec_effect i s
  generalize exec i s = o at he
  cases he with
  | appended ts b _ _ h3 h4 =>
    obtain ⟨hk, ha⟩ | ⟨-, ha⟩ | ⟨-, ha⟩ := append_cases config b { s with lastTs := ts } <;> rw [ha]
    · exact .inr ⟨rfl, h3, h4, hk⟩
    · exact .inl ⟨_, rfl⟩
    · exact .inl ⟨_, rfl⟩
  | none | rearm | reset | output | held | aborted | syncHigh | acquired | opened => exact .inl ⟨_, rfl⟩

/-- An edge operation at a time is no other operation, and an edge has its own time. -/
theorem IsEdgeAt.spec {i : Instr} {ts : Timestamp} (h : IsEdgeAt i ts) :
    (∀ ts' level, i = .edge ts' level → ts' = ts) ∧ isDecoderOp i = false ∧ i ≠ .nop ∧ i ≠ .rearm ∧ i ≠ .reset := by
  obtain ⟨level, rfl⟩ | ⟨dw, r, rfl⟩ := h
  · exact ⟨fun _ _ h => by cases h; rfl, rfl, nofun, nofun, nofun⟩
  · cases r <;> exact ⟨nofun, rfl, nofun, nofun, nofun⟩

@[simp] theorem step_empty (s : State) (h : s.inputs = []) : step s = .next s := by
  simp only [step, h]; rfl

theorem step_cons (s : State) (r : Request) (rest : List Request) (h : s.inputs = r :: rest) :
    step s = exec (decode r) (s.setInputs rest) := by
  simp only [step, h]

/-- All a step can do. -/
theorem step_cases (s : State) :
    (s.inputs = [] ∧ step s = .next s)
    ∨ ∃ r rest, s.inputs = r :: rest ∧ step s = exec (decode r) (s.setInputs rest) := by
  cases h : s.inputs with
  | nil => exact .inl ⟨rfl, step_empty s h⟩
  | cons r rest => exact .inr ⟨r, rest, rfl, step_cons s r rest h⟩

end Sys2Proof.Machine
end

