-- ==== Sys2Proof/Laws/Environment.lean ====
section
/-! SUPPORT. What an interaction of the environment can do to a packet that is ready. -/

namespace Sys2Proof.Machine

@[simp] theorem Act.perform_poll (s : State) : Act.poll.perform s = .next s := rfl
@[simp] theorem Act.perform_take (part : Acc) (s : State) : (Act.take part).perform s = .next s := rfl
@[simp] theorem Act.perform_edge (ts : Timestamp) (level : Level) (time : Nat) (s : State) :
    (Act.edge ts level time).perform s = exec (.edge ts level) s := rfl

/-- While a packet is ready, a read shows it. -/
theorem Environment.packetSeen_ready (e : Environment) (s : State) (h : s.ready = true) : e.packetSeen s = s.acc := by
  simp [Environment.packetSeen, h, State.packetO]

theorem Environment.finished_iff (e : Environment) : e.finished = true ↔ e.taken = BitVec.allOnes 36 := by
  simp [Environment.finished]

/-- An edge that ends with a packet ready left it ready, or completed it. -/
theorem edge_ready (ts : Timestamp) (level : Level) (s t : State) (h : exec (.edge ts level) s = .next t)
    (ht : t.enable = false) :
    (s.enable = false ∧ t = s)
    ∨ (s.enable = true ∧ level = .high ∧ s.bitCount.toNat = 35 ∧ t.bitCount = s.bitCount + 1) := by
  have hx := exec_next _ s t h
  clear h
  generalize hi : Instr.edge ts level = i at hx
  cases hx with
  | none h => exact .inl ⟨h ts level hi.symm, rfl⟩
  | completed ts' b _ ha he _ hk =>
    refine .inr ⟨he, ?_, hk, rfl⟩
    cases b <;> obtain ⟨h, -⟩ | ⟨dw, h⟩ := ha <;> subst h <;> cases hi <;> rfl
  | rearm h => subst h; cases hi
  | reset h => subst h; cases hi
  | output r h => subst hi; cases h
  | held _ _ he | aborted _ _ he | syncHigh _ _ he | acquired _ _ _ he | opened _ _ he | appended _ _ _ _ he =>
    exact absurd (he.symm.trans ht) nofun

/-- Two edges delivered from one counter are apart by the true time between them, below a wrap of the counter
(40_classifier.md R76). -/
theorem duration_of_clock (first second : Nat) (h : first ≤ second) (hw : second - first < 2 ^ 32) :
    (duration (BitVec.ofNat 32 second) (BitVec.ofNat 32 first)).toNat = second - first := by
  simp only [duration, BitVec.toNat_sub, BitVec.toNat_ofNat]
  omega

end Sys2Proof.Machine
end

