-- ==== Sys2Proof/Laws/PerInstr.lean ====
section
/-! SUPPORT. What holds of every instruction as syntax, one lemma per constructor. `EncodesInRow`: the encoded word has
the format and the fixed bits that spec/opcode_table.json gives the instruction's row. -/

namespace Sys2Proof.Laws

/-- A row of the opcode table: its format, and the bits it fixes. -/
inductive TableRow where
  | cmd (code : BitVec 2)
  | dispatch (r : Row)
  | decode
  | field (f : PacketField)
  deriving DecidableEq, Repr

/-- The row of an instruction. -/
def tableRow : Instr → TableRow
  | .nop => .cmd 0
  | .edge _ _ => .cmd 1
  | .rearm => .cmd 2
  | .reset => .cmd 3
  | .guard _ _ => .dispatch .guard
  | .sshLFit _ _ => .dispatch .sshLFit
  | .sshLMiss _ _ => .dispatch .sshLMiss
  | .sshH _ _ => .dispatch .sshH
  | .sslHFit _ _ => .dispatch .sslHFit
  | .sslHMiss _ _ => .dispatch .sslHMiss
  | .sslL _ _ => .dispatch .sslL
  | .rbsL _ _ => .dispatch .rbsL
  | .rbsH _ _ => .dispatch .rbsH
  | .rbeHZero _ _ => .dispatch .rbeHZero
  | .rbeHOne _ _ => .dispatch .rbeHOne
  | .rbeHMiss _ _ => .dispatch .rbeHMiss
  | .rbeL _ _ => .dispatch .rbeL
  | .idleAny _ _ => .dispatch .idleAny
  | .rsvd5 _ _ => .dispatch .rsvd5
  | .rsvd67 _ _ => .dispatch .rsvd67
  | .decode _ _ => .decode
  | .fieldId _ => .field .id
  | .fieldBattery _ => .field .battery
  | .fieldUnused26 _ => .field .unused26
  | .fieldChannel _ => .field .channel
  | .fieldTemp _ => .field .tempRaw
  | .fieldPad _ => .field .pad
  | .fieldHumidity _ => .field .humidity

/-- Does a raw word belong to a row? -/
def TableRow.holds : TableRow → Request → Bool
  | .cmd code, .cmd w => Machine.cmdCode w == code
  | .dispatch r, .row dw _ => Machine.rowMatches r dw
  | .decode, .decode _ _ => true
  | .field f, .field g _ => f == g
  | _, _ => false

/-- The encoded word of a well-formed instruction belongs to the instruction's row. -/
def EncodesInRow.Statement (i : Instr) : Prop :=
  i.wellFormed = true → (tableRow i).holds (encode i) = true

namespace EncodesInRow

theorem nop : Statement .nop := fun _ => by simp [tableRow, encode, TableRow.holds]
theorem edge (ts : Timestamp) (level : Level) : Statement (.edge ts level) := fun _ => by
  simp [tableRow, encode, TableRow.holds]
theorem rearm : Statement .rearm := fun _ => by simp [tableRow, encode, TableRow.holds]
theorem reset : Statement .reset := fun _ => by simp [tableRow, encode, TableRow.holds]
theorem guard (dw : DispatchWord) (ts : Timestamp) : Statement (.guard dw ts) := id
theorem sshLFit (dw : DispatchWord) (ts : Timestamp) : Statement (.sshLFit dw ts) := id
theorem sshLMiss (dw : DispatchWord) (ts : Timestamp) : Statement (.sshLMiss dw ts) := id
theorem sshH (dw : DispatchWord) (ts : Timestamp) : Statement (.sshH dw ts) := id
theorem sslHFit (dw : DispatchWord) (ts : Timestamp) : Statement (.sslHFit dw ts) := id
theorem sslHMiss (dw : DispatchWord) (ts : Timestamp) : Statement (.sslHMiss dw ts) := id
theorem sslL (dw : DispatchWord) (ts : Timestamp) : Statement (.sslL dw ts) := id
theorem rbsL (dw : DispatchWord) (ts : Timestamp) : Statement (.rbsL dw ts) := id
theorem rbsH (dw : DispatchWord) (ts : Timestamp) : Statement (.rbsH dw ts) := id
theorem rbeHZero (dw : DispatchWord) (ts : Timestamp) : Statement (.rbeHZero dw ts) := id
theorem rbeHOne (dw : DispatchWord) (ts : Timestamp) : Statement (.rbeHOne dw ts) := id
theorem rbeHMiss (dw : DispatchWord) (ts : Timestamp) : Statement (.rbeHMiss dw ts) := id
theorem rbeL (dw : DispatchWord) (ts : Timestamp) : Statement (.rbeL dw ts) := id
theorem idleAny (dw : DispatchWord) (ts : Timestamp) : Statement (.idleAny dw ts) := id
theorem rsvd5 (dw : DispatchWord) (ts : Timestamp) : Statement (.rsvd5 dw ts) := id
theorem rsvd67 (dw : DispatchWord) (ts : Timestamp) : Statement (.rsvd67 dw ts) := id
theorem decode (packet : DecPacket) (now : Timestamp) : Statement (.decode packet now) := id
theorem fieldId (packet : DecPacket) : Statement (.fieldId packet) := id
theorem fieldBattery (packet : DecPacket) : Statement (.fieldBattery packet) := id
theorem fieldUnused26 (packet : DecPacket) : Statement (.fieldUnused26 packet) := id
theorem fieldChannel (packet : DecPacket) : Statement (.fieldChannel packet) := id
theorem fieldTemp (packet : DecPacket) : Statement (.fieldTemp packet) := id
theorem fieldPad (packet : DecPacket) : Statement (.fieldPad packet) := id
theorem fieldHumidity (packet : DecPacket) : Statement (.fieldHumidity packet) := id

end EncodesInRow

end Sys2Proof.Laws
end

