-- ==== Sys2Proof/Tests/Slice0.lean ====
section
/-! SUPPORT. Tests of the model against the spec's own tables and examples (95_test_vectors.md and the examples of the
rules), the smoke test of `wellFormed`, and for each statement with hypotheses a state and operands that meet them. -/

open Sys2Proof Sys2Proof.Machine

namespace Sys2Proof.Tests

/-- The state tuple of 41_assembler.md's examples, with nothing presented and no reading. -/
def st (state : DecState) (acc : Acc) (bitCount : Count) (lastTs : Timestamp) (enable : Bool) : State where
  state := state
  acc := acc
  bitCount := bitCount
  lastTs := lastTs
  enable := enable
  inputs := []
  reading := Reading.zero

/-- The next state, if that is what an operation ended in. -/
def nextOf : Result → Option State
  | .next s => some s
  | .fault _ => none
  | .refused _ => none

/-! ### Parameters and well-formedness -/

/-- 00_scope.md R4. -/
theorem test_config_valid : config.valid = true := by decide

/-- 00_scope.md R4: a profile below the tolerance, a sync low beyond the timer, `S_DONE` and `CH_LSB` out of range. -/
theorem test_config_invalid :
    Config.valid { config with pZero := 299 } = false ∧ Config.valid { config with pSyncLow := 2 ^ 32 } = false
      ∧ Config.valid { config with sDone := .idle } = false ∧ Config.valid { config with chLsb := 26 } = false := by
  decide

/-- An ill-formed term for each check: the pattern of 30_encoding.md R52 with one fixed bit turned. -/
theorem test_ill_formed_rows :
    (Instr.guard 0x100 0).wellFormed = false ∧ (Instr.sshLFit 0x100 0).wellFormed = false
      ∧ (Instr.sshLMiss 0x108 0).wellFormed = false ∧ (Instr.sshH 0x100 0).wellFormed = false
      ∧ (Instr.sslHFit 0x130 0).wellFormed = false ∧ (Instr.sslHMiss 0x134 0).wellFormed = false
      ∧ (Instr.sslL 0x130 0).wellFormed = false ∧ (Instr.rbsL 0x150 0).wellFormed = false
      ∧ (Instr.rbsH 0x140 0).wellFormed = false ∧ (Instr.rbeHZero 0x170 0).wellFormed = false
      ∧ (Instr.rbeHOne 0x173 0).wellFormed = false ∧ (Instr.rbeHMiss 0x172 0).wellFormed = false
      ∧ (Instr.rbeL 0x170 0).wellFormed = false ∧ (Instr.idleAny 0x1A0 0).wellFormed = false
      ∧ (Instr.rsvd5 0x180 0).wellFormed = false ∧ (Instr.rsvd67 0x180 0).wellFormed = false := by
  decide

/-! ### Decoding: words written out bit by bit -/

/-- 30_encoding.md R46: `cmd` 34:33, `level` 32, `ts` 31:0; the ignored fields set where they are ignored. -/
theorem test_decode_commands :
    decode (.cmd 0b00_1_00000000000000000000000000000001) = .nop
      ∧ decode (.cmd 0b01_0_00000000000000000000010111011100) = .edge 1500 .low
      ∧ decode (.cmd 0b01_1_10000000000000000000000000000001) = .edge 0x80000001 .high
      ∧ decode (.cmd 0b10_1_00000000000000000000001111101000) = .rearm
      ∧ decode (.cmd 0b11_0_00000000000000000000000000000000) = .reset := by
  decide

/-- 30_encoding.md R51, R52: `enable`, `state`, `level`, then the four fits. -/
theorem test_decode_rows :
    decode (.row 0b0_011_1_0010 5) = .guard 0b0_011_1_0010 5
      ∧ decode (.row 0b1_000_0_1001 5) = .sshLFit 0b1_000_0_1001 5
      ∧ decode (.row 0b1_000_0_0111 5) = .sshLMiss 0b1_000_0_0111 5
      ∧ decode (.row 0b1_000_1_1111 5) = .sshH 0b1_000_1_1111 5
      ∧ decode (.row 0b1_001_1_0100 5) = .sslHFit 0b1_001_1_0100 5
      ∧ decode (.row 0b1_001_1_1011 5) = .sslHMiss 0b1_001_1_1011 5
      ∧ decode (.row 0b1_001_0_0100 5) = .sslL 0b1_001_0_0100 5
      ∧ decode (.row 0b1_010_0_0000 5) = .rbsL 0b1_010_0_0000 5
      ∧ decode (.row 0b1_010_1_0001 5) = .rbsH 0b1_010_1_0001 5
      ∧ decode (.row 0b1_011_1_0011 5) = .rbeHZero 0b1_011_1_0011 5
      ∧ decode (.row 0b1_011_1_0010 5) = .rbeHOne 0b1_011_1_0010 5
      ∧ decode (.row 0b1_011_1_1100 5) = .rbeHMiss 0b1_011_1_1100 5
      ∧ decode (.row 0b1_011_0_0001 5) = .rbeL 0b1_011_0_0001 5
      ∧ decode (.row 0b1_100_0_0000 5) = .idleAny 0b1_100_0_0000 5
      ∧ decode (.row 0b1_101_1_0000 5) = .rsvd5 0b1_101_1_0000 5
      ∧ decode (.row 0b1_110_0_0000 5) = .rsvd67 0b1_110_0_0000 5
      ∧ decode (.row 0b1_111_1_1111 5) = .rsvd67 0b1_111_1_1111 5 := by
  decide

/-- 30_encoding.md R53, 43_field_decoder.md R131: the decoder's operations carry their word unchanged. -/
theorem test_decode_packets :
    decode (.decode 0x123456789 99) = .decode 0x123456789 99 ∧ decode (.field .id 1) = .fieldId 1
      ∧ decode (.field .battery 1) = .fieldBattery 1 ∧ decode (.field .unused26 1) = .fieldUnused26 1
      ∧ decode (.field .channel 1) = .fieldChannel 1 ∧ decode (.field .tempRaw 1) = .fieldTemp 1
      ∧ decode (.field .pad 1) = .fieldPad 1 ∧ decode (.field .humidity 1) = .fieldHumidity 1 := by
  decide

/-- The command words of V-EDGE and V-CTL, encoded. -/
theorem test_encode_commands :
    encode (.edge 1500 .low) = .cmd 0x2000005DC ∧ encode (.edge 74500 .high) = .cmd 0x300012304
      ∧ encode .rearm = .cmd 0x400000000 ∧ encode .reset = .cmd 0x600000000 ∧ encode .nop = .cmd 0 := by
  decide

/-- V-DISPATCH: the words of each row, 512 in all. -/
theorem test_words_per_row :
    rows.map (fun r => (List.range 512).countP fun n => rowMatches r (BitVec.ofNat 9 n))
      = [256, 8, 8, 16, 8, 8, 16, 16, 16, 8, 4, 4, 16, 32, 32, 64] := by
  decide +kernel

/-- The table's words in the table's numbering: a dispatch word in 16 bits, a command in 40, a packet word by bit 35; and
one bit too many. -/
theorem test_table_words :
    decodeTableWord 16 0x108 = some (.sshLFit 0x108 0) ∧ decodeTableWord 40 0x300000007 = some (.edge 7 .high)
      ∧ decodeTableWord 40 0x812345678 = some (.decode 0x812345678 0) ∧ decodeTableWord 16 0x200 = none
      ∧ decodeTableWord 40 0x1000000000 = none := by
  decide

/-- The first step after reset runs the word placed by `withFetchWord`. -/
theorem test_first_step :
    (nextOf (step (State.reset.withFetchWord 16 0x108))).map State.tuple = some (.searchSyncLow, 0, 0, 0, true)
      ∧ (nextOf (step (State.reset.withFetchWord 40 0x3000003E8))).map State.tuple
        = some (.searchSyncHigh, 0, 0, 1000, true) := by
  decide

/-! ### The classifier (V-CLS) -/

/-- V-CLS: every boundary, the overlap, and durations that must not be truncated. -/
theorem test_fit_vectors :
    ([0, 200, 201, 700, 701, 799, 800, 1299, 1300, 1500, 1700, 1701, 2299, 2300, 3700, 3701, 4299, 4300, 65536, 4294967295] :
        List (BitVec 32)).map (fitVector config)
      = [0b0000, 0b0000, 0b1000, 0b1000, 0b1001, 0b1001, 0b0001, 0b0001, 0b0000, 0b0000, 0b0000, 0b0010, 0b0010, 0b0000,
          0b0000, 0b0100, 0b0100, 0b0000, 0b0000, 0b0000] := by
  decide

/-- V-CLS: the durations, with the counter wrapped. -/
theorem test_durations :
    duration (0x000005DC : Timestamp) 0x000003E8 = 500 ∧ duration (0x000000F4 : Timestamp) 0xFFFFFF00 = 500
      ∧ duration (0x00000000 : Timestamp) 0xFFFFFFFF = 1 ∧ duration (0x00001387 : Timestamp) 0x00001388 = 4294967295
      ∧ duration (0x80000FA0 : Timestamp) 0x80000000 = 4000 := by
  decide

/-! ### One step each (V-EDGE, V-CTL) -/

theorem test_guard : nextOf (exec (.edge 80000 .low) (st .readBitStart 0x123456789 36 74500 false))
    = some (st .readBitStart 0x123456789 36 74500 false) := by decide

theorem test_ssh_l_fit : nextOf (exec (.edge 1201 .low) (st .searchSyncHigh 0 0 1000 true))
    = some (st .searchSyncLow 0 0 1201 true) := by decide

theorem test_ssh_l_miss : nextOf (exec (.edge 1800 .low) (st .searchSyncHigh 0 0 1000 true))
    = some (st .searchSyncHigh 0 0 1800 true) := by decide

theorem test_ssh_h : nextOf (exec (.edge 1000 .high) (st .searchSyncHigh 0 0 0 true))
    = some (st .searchSyncHigh 0 0 1000 true) := by decide

theorem test_ssl_h_fit : nextOf (exec (.edge 5500 .high) (st .searchSyncLow 0x120000000 7 1500 true))
    = some (st .readBitStart 0 0 5500 true) := by decide

theorem test_ssl_h_miss : nextOf (exec (.edge 5800 .high) (st .searchSyncLow 0 0 1500 true))
    = some (st .searchSyncHigh 0 0 5800 true) := by decide

theorem test_ssl_l : nextOf (exec (.edge 3000 .low) (st .searchSyncLow 0 0 1500 true))
    = some (st .searchSyncLow 0 0 3000 true) := by decide

theorem test_rbs_l : nextOf (exec (.edge 905500 .low) (st .readBitStart 0 0 5500 true))
    = some (st .readBitEnd 0 0 905500 true) := by decide

theorem test_rbs_h : nextOf (exec (.edge 5600 .high) (st .readBitStart 0 0 5500 true))
    = some (st .readBitStart 0 0 5600 true) := by decide

theorem test_rbe_h_zero : nextOf (exec (.edge 6750 .high) (st .readBitEnd 0 0 6000 true))
    = some (st .readBitStart 0 1 6750 true) := by decide

theorem test_rbe_h_zero_completes : nextOf (exec (.edge 73500 .high) (st .readBitEnd 0x123456788 35 72500 true))
    = some (st .readBitStart 0x123456788 36 73500 false) := by decide

theorem test_rbe_h_one : nextOf (exec (.edge 12500 .high) (st .readBitEnd 0 3 10500 true))
    = some (st .readBitStart 0x100000000 4 12500 true) := by decide

theorem test_rbe_h_one_completes : nextOf (exec (.edge 74500 .high) (st .readBitEnd 0x123456788 35 72500 true))
    = some (st .readBitStart 0x123456789 36 74500 false) := by decide

theorem test_rbe_h_miss : nextOf (exec (.edge 14500 .high) (st .readBitEnd 0x100000000 4 13000 true))
    = some (st .searchSyncHigh 0x100000000 4 14500 true) := by decide

theorem test_rbe_h_miss_at_36 : nextOf (exec (.edge 94000 .high) (st .readBitEnd 0x123456789 36 90000 true))
    = some (st .searchSyncHigh 0x123456789 36 94000 true) := by decide

theorem test_rbe_l : nextOf (exec (.edge 6400 .low) (st .readBitEnd 0 0 6000 true))
    = some (st .readBitEnd 0 0 6400 true) := by decide

theorem test_overrun : exec (.edge 91000 .high) (st .readBitEnd 0x123456789 36 90000 true) = .fault .overrun := rfl

theorem test_idle : nextOf (exec (.edge 500 .low) (st .idle 0 0 0 true)) = some (st .idle 0 0 500 true) := by decide

theorem test_rearm : nextOf (exec .rearm (st .readBitStart 0x123456789 36 74500 false))
    = some (st .readBitStart 0x123456789 36 74500 true) := by decide

theorem test_reset : nextOf (exec .reset (st .readBitStart 0x123456789 36 74500 false))
    = some (st .searchSyncHigh 0 0 0 true) := by decide

/-- A row presented by itself, selected and not selected. -/
theorem test_row_by_itself :
    nextOf (exec (.rbeHOne 0x172 9) (st .readBitEnd 0 0 6000 true)) = some (st .readBitStart 0x800000000 1 9 true)
      ∧ nextOf (exec (.rbeHOne 0x172 9) (st .readBitStart 0 0 6000 true)) = some (st .readBitStart 0 0 6000 true) := by
  decide

/-! ### The field decoder (V-DEC) -/

/-- V-DEC: id, battery, channel, temp_raw, humidity. -/
theorem test_decode_vectors :
    ([0x000000000, 0xFFFFFFFFF, 0x123456789, 0x127456089, 0xA590D7F2D, 0x3C2FCEF63, 0x004000F00] : List (BitVec 36)).map
        (fun p => readingOf config p 7)
      = [⟨7, 0, false, 0, 0, 0⟩, ⟨7, 255, true, 3, 4095, 255⟩, ⟨7, 18, false, 3, 1110, 137⟩, ⟨7, 18, false, 3, 1110, 137⟩,
          ⟨7, 165, true, 1, 215, 45⟩, ⟨7, 60, false, 2, 4046, 99⟩, ⟨7, 0, false, 0, 0, 0⟩] := by
  decide

/-- V-DEC: a wider word, the other reading of conflict C1, and the signed temperature of `0x3C2FCEF63`. -/
theorem test_decode_wide_and_parameters :
    readingOf config (0xFFFFFFF123456789 : BitVec 64) 7 = readingOf config (0x123456789 : BitVec 36) 7
      ∧ (readingOf { config with chLsb := 25 } (0x123456789 : BitVec 36) 7).channel = 1
      ∧ tempTenths { config with tempSigned := true } (readingOf config (0x3C2FCEF63 : BitVec 36) 7).tempRaw = -50 := by
  decide

/-- 43_field_decoder.md R130. -/
theorem test_pack : pack 0x12 0 0 3 0x456 0x7 0x89 = 0x123456789 := by decide

/-- 43_field_decoder.md R121, R126 as operations by themselves. -/
theorem test_fields_by_themselves :
    (nextOf (exec (.fieldId 0x123456789) State.reset)).map State.reading = some ⟨0, 18, false, 0, 0, 0⟩
      ∧ (nextOf (exec (.fieldHumidity 0x123456789) State.reset)).map State.reading = some ⟨0, 0, false, 0, 0, 137⟩ := by
  decide

/-- 30_encoding.md R59. -/
theorem test_trace_lines :
    traceLine (.edge 1500 .low) = some "EDGE 1500 L" ∧ traceLine (.edge 7 .high) = some "EDGE 7 H"
      ∧ traceLine .rearm = some "REARM" := by
  decide

/-- 60_exceptions.md R146, 10_state.md R16. -/
theorem test_roles :
    Role.mayIssue .handler (.edge 0 .low) = true ∧ Role.mayIssue .reader (.edge 0 .low) = false
      ∧ Role.mayIssue .reader .rearm = true ∧ Role.mayIssue .handler (.decode 0 0) = false
      ∧ Role.mayRead .reader .acc State.reset = false
      ∧ Role.mayRead .reader .acc (st .readBitStart 1 36 0 false) = true := by
  decide

/-- The reader of a packet `p` that has read the bits `taken` of it, after a poll that found it ready or before. -/
def reader (checked : Bool) (taken p : Acc) : Environment where
  clock := 74500
  checked := checked
  taken := taken
  packet := p &&& taken
  decoded := false
  mayRearm := true
  acceptsLoss := false
  reads := 0

/-- 60_exceptions.md R152, rows "take packet", "decode", "re-arm" and "reset": what the reader must not do and what it may;
70_reset_and_hazards.md R157 (3): one `REARM` at start-up. -/
theorem test_reader_duty :
    let ready := st .readBitStart 0x123456789 36 74500 false
    let partRead := reader true 0x0FFFFFFFF 0x123456789
    let read := reader true 0xFFFFFFFFF 0x123456789
    readerDuty read (.take 1) State.reset = false ∧ readerDuty (reader false 0 0) (.take 1) ready = false
      ∧ readerDuty partRead (.take 1) ready = true
      ∧ readerDuty partRead (.decode 0x123456789 99) ready = false ∧ readerDuty read (.decode 0x123456789 99) ready = true
      ∧ readerDuty read (.decode 0x123456788 99) ready = false
      ∧ readerDuty partRead .rearm ready = false ∧ readerDuty read .rearm ready = true
      ∧ rearmPreferred .rearm ready = false ∧ rearmPreferred .rearm State.reset = true
      ∧ readerDuty partRead .reset ready = false ∧ readerDuty { partRead with acceptsLoss := true } .reset ready = true
      ∧ readerDuty (Environment.start false) .rearm State.reset = true := by
  decide

/-- R152, row "edge delivery": the timestamp is the counter, `2^32` microseconds wrap it, and time does not run back. -/
theorem test_handler_duty :
    handlerDuty (reader false 0 0) (.edge 80000 .low 80000) = true ∧ handlerDuty (reader false 0 0) (.edge 80001 .low 80000) = false
      ∧ handlerDuty (reader false 0 0) (.edge 5 .low 4294967301) = true ∧ handlerDuty (reader false 0 0) (.edge 5 .low 5) = false := by
  decide

/-- R152 in its order, the read in two parts with an edge between (20_memory.md R35), the `REARM` after a `RESET` or bare;
two in a row are one too many, and a read without the poll before it is out of order (R158). -/
theorem test_dutiful :
    let ready := st .readBitStart 0x123456789 36 74500 false
    let acts := [.poll, .take 0xFFFFC0000, .edge 80000 .low 80000, .take 0x00003FFFF, .decode 0x123456789 99]
    dutiful (reader false 0 0) ready (acts ++ [.reset, .rearm]) = true ∧ dutiful (reader false 0 0) ready (acts ++ [.rearm]) = true
      ∧ dutiful (reader false 0 0) ready (acts ++ [.rearm, .rearm]) = false
      ∧ dutiful (reader false 0 0) ready (acts.tail ++ [.rearm]) = false := by
  decide

/-! ### For each statement with hypotheses, what meets them -/

/-- A block about to complete. -/
def atLast : State := st .readBitEnd 0x123456788 35 72500 true

/-- A completed block. -/
def complete : State := st .readBitStart 0x123456789 36 74500 false

theorem witness_DecodeOfEncodeIsTheInstruction :
    (Instr.rbeHOne 0x17A 5).wellFormed = true ∧ (Instr.edge 0xFFFFFFFF .high).wellFormed = true := by decide

theorem witness_CommandFieldsAreWhereTheFormatSays :
    (0x1FFFFFFFF : CmdWord).toNat / 2 ^ 33 = 0 ∧ (0x3FFFFFFFF : CmdWord).toNat / 2 ^ 33 = 1
      ∧ (0x5FFFFFFFF : CmdWord).toNat / 2 ^ 33 = 2 ∧ (0x7FFFFFFFF : CmdWord).toNat / 2 ^ 33 = 3 := by decide

theorem witness_StepPerformsTheOldestOperation :
    State.reset.inputs = [] ∧ (State.reset.present [.cmd 0x400000000]).inputs = .cmd 0x400000000 :: []
      ∧ Instr.rearm.wellFormed = true ∧ (State.reset.present [.cmd 0x400000000]).inputs = encode .rearm :: [] := by decide

theorem witness_RearmSetsEnableOnly : State.reset.enable = true := by decide

theorem witness_DurationIsTheDifferenceModuloTheWidth :
    (5 : Timestamp) = 5 ∧ (0 : Timestamp).toNat < (0xFFFFFFFF : Timestamp).toNat := by decide

theorem witness_FitIsTheOpenInterval :
    config.tol ≤ config.pSyncHigh ∧ fits config 500 200 = false ∧ fits config 500 800 = false
      ∧ fits config 500 201 = true ∧ fits config 500 799 = true := by decide

theorem witness_FitVectorsThatOccur :
    13 ≤ 13 ∧ 13 ≤ 32 ∧ fitVector config (750 : BitVec 13) = 0b1001 ∧ fitVector config (4000 : BitVec 13) = 0b0100 := by
  decide

/-- The first part with windows widened until a duration fits both (R75), and each bit with the literal ones. -/
theorem witness_ZeroIsEvaluatedBeforeOne :
    let s := st .readBitEnd 0 0 6000 true
    let wide := { config with tol := 600 }
    s.enable = true ∧ s.state = .readBitEnd
      ∧ fitZero wide (duration 7500 s.lastTs) = true ∧ fitOne wide (duration 7500 s.lastTs) = true
      ∧ fitZero config (duration 7701 s.lastTs) = false ∧ fitOne config (duration 7701 s.lastTs) = true := by decide

theorem witness_SyncHighFitEntersSearchSyncLow :
    let s := st .searchSyncHigh 0 0 1000 true
    s.enable = true ∧ s.state = .searchSyncHigh ∧ fitSyncHigh config (duration 1201 s.lastTs) = true
      ∧ fitSyncHigh config (duration 1799 s.lastTs) = true ∧ (0x109 : DispatchWord) &&& 0x1F8 = 0x108 := by decide

theorem witness_SyncHighMissKeepsSearching :
    let s := st .searchSyncHigh 0 0 1000 true
    s.enable = true ∧ s.state = .searchSyncHigh ∧ fitSyncHigh config (duration 1200 s.lastTs) = false
      ∧ fitSyncHigh config (duration 1800 s.lastTs) = false ∧ (0x107 : DispatchWord) &&& 0x1F8 = 0x100 := by decide

theorem witness_HighInSearchSyncHighIsIgnored :
    let s := st .searchSyncHigh 0 0 0 true
    s.enable = true ∧ s.state = .searchSyncHigh ∧ (0x11F : DispatchWord) &&& 0x1F0 = 0x110 := by decide

theorem witness_SyncLowFitClearsAndStartsReading :
    let s := st .searchSyncLow 0x120000000 7 1500 true
    s.enable = true ∧ s.state = .searchSyncLow ∧ fitSyncLow config (duration 5201 s.lastTs) = true
      ∧ fitSyncLow config (duration 5799 s.lastTs) = true ∧ (0x134 : DispatchWord) &&& 0x1F4 = 0x134
      ∧ Row.rbeHOne ≠ .sslHFit ∧ nextOf (performRow config .rbeHOne 74500 atLast) ≠ none := by decide

theorem witness_SyncLowMissResetsTheSearch :
    let s := st .searchSyncLow 0 0 1500 true
    s.enable = true ∧ s.state = .searchSyncLow ∧ fitSyncLow config (duration 5200 s.lastTs) = false
      ∧ fitSyncLow config (duration 5800 s.lastTs) = false ∧ (0x13B : DispatchWord) &&& 0x1F4 = 0x130 := by decide

theorem witness_LowInSearchSyncLowIsIgnored :
    let s := st .searchSyncLow 0 0 1500 true
    s.enable = true ∧ s.state = .searchSyncLow ∧ (0x124 : DispatchWord) &&& 0x1F0 = 0x120 := by decide

theorem witness_LowInReadBitStartOpensTheBit :
    let s := st .readBitStart 0 0 5500 true
    s.enable = true ∧ s.state = .readBitStart ∧ (0x14F : DispatchWord) &&& 0x1F0 = 0x140 := by decide

theorem witness_HighInReadBitStartIsIgnored :
    let s := st .readBitStart 0 0 5500 true
    s.enable = true ∧ s.state = .readBitStart ∧ (0x150 : DispatchWord) &&& 0x1F0 = 0x150 := by decide

theorem witness_ZeroPulseAppendsZero :
    atLast.enable = true ∧ atLast.state = .readBitEnd ∧ fitZero config (duration 73799 atLast.lastTs) = true
      ∧ (0x179 : DispatchWord) &&& 0x1F1 = 0x171 ∧ atLast.bitCount.toNat < 36
      ∧ 36 ≤ (st .readBitEnd 0 36 6000 true).bitCount.toNat
      ∧ fitZero config (duration 6701 (st .readBitEnd 0 36 6000 true).lastTs) = true := by decide

theorem witness_OnePulseAppendsOne :
    atLast.enable = true ∧ atLast.state = .readBitEnd ∧ fitOne config (duration 74799 atLast.lastTs) = true
      ∧ (0x17A : DispatchWord) &&& 0x1F3 = 0x172 ∧ atLast.bitCount.toNat < 36
      ∧ 36 ≤ (st .readBitEnd 0 36 6000 true).bitCount.toNat
      ∧ fitOne config (duration 7701 (st .readBitEnd 0 36 6000 true).lastTs) = true := by decide

theorem witness_MisfitInReadBitEndAbortsThePacket :
    let s := st .readBitEnd 0x123456789 36 90000 true
    s.enable = true ∧ s.state = .readBitEnd ∧ fitZero config (duration 91300 s.lastTs) = false
      ∧ fitOne config (duration 91300 s.lastTs) = false ∧ (0x17C : DispatchWord) &&& 0x1F3 = 0x170 := by decide

theorem witness_LowInReadBitEndIsIgnored :
    let s := st .readBitEnd 0 0 6000 true
    s.enable = true ∧ s.state = .readBitEnd ∧ (0x161 : DispatchWord) &&& 0x1F0 = 0x160 := by decide

theorem witness_IdleAndReservedStatesHold :
    (st .idle 0 0 0 true).enable = true ∧ isReachableState .idle = false ∧ isReachableState .rsvd5 = false
      ∧ isReachableState .rsvd6 = false ∧ isReachableState .rsvd7 = false
      ∧ (0x19F : DispatchWord) &&& 0x1E0 = 0x180 ∧ (0x1BF : DispatchWord) &&& 0x1E0 = 0x1A0
      ∧ (0x1C0 : DispatchWord) &&& 0x1E0 = 0x1C0 ∧ (0x1FF : DispatchWord) &&& 0x1E0 = 0x1E0 := by decide

theorem witness_GuardedEdgeIsANoOp : complete.enable = false := by decide

theorem witness_DisabledBlockKeepsItsTuple :
    complete.enable = false
      ∧ ∀ i ∈ [Instr.edge 75000 .low, .nop, .decode 1 2, .rbsL 0x140 5], i ≠ Instr.rearm ∧ i ≠ .reset := by decide

/-- A word of another pattern, a word of the other `enable`, a word of another state. -/
theorem witness_RowNotSelectedWritesNothing :
    (0x100 : DispatchWord) &&& rowMask .sshLFit ≠ rowMatch .sshLFit
      ∧ (0x108 : DispatchWord).getLsbD 8 ≠ complete.enable
      ∧ (0x108 : DispatchWord).extractLsb' 5 3 ≠ atLast.stateO := by decide

theorem witness_AppendWritesPosition35MinusCounter :
    atLast.bitCount.toNat ≤ 35 ∧ atLast.bitCount.toNat + 1 = 36
      ∧ State.reset.bitCount.toNat ≤ 35 ∧ State.reset.bitCount.toNat + 1 ≠ 36 := by decide

/-- Low pulses at both ends of their windows for a pattern with both bits. -/
theorem witness_CanonicalSequenceDeliversThePacket :
    let p : Acc := 0x123456789
    let bits : List (Timestamp × Timestamp) :=
      (List.range 36).map fun k => (900000, if p.getLsbD (35 - k) then (if k < 20 then 1701 else 2299) else (if k < 20 then 701 else 1299))
    State.reset.state = .searchSyncHigh ∧ State.reset.enable = true ∧ bits.length = 36
      ∧ 201 ≤ (799 : Timestamp).toNat ∧ (799 : Timestamp).toNat ≤ 799
      ∧ 3701 ≤ (3701 : Timestamp).toNat ∧ (3701 : Timestamp).toNat ≤ 4299
      ∧ ∀ (k : Nat) (h : k < bits.length),
        if p.getLsbD (35 - k) then 1701 ≤ bits[k].2.toNat ∧ bits[k].2.toNat ≤ 2299
        else 701 ≤ bits[k].2.toNat ∧ bits[k].2.toNat ≤ 1299 := by
  refine ⟨rfl, rfl, rfl, by decide, by decide, by decide, by decide, fun k h => ?_⟩
  simp only [List.getElem_map, List.getElem_range]
  split <;> split <;> decide

theorem witness_NominalSequenceDeliversThePacket :
    State.reset.state = .searchSyncHigh ∧ State.reset.enable = true := by decide

theorem witness_EveryEdgeBelow36BitsIsDefined : atLast.bitCount.toNat ≤ 35 := by decide

theorem witness_OverrunIsTheOnlyStop :
    exec (.rbeHZero 0x171 5) (st .readBitEnd 0 36 0 true) = .fault .overrun := rfl

theorem witness_LastTimestampIsThatOfTheLastEnabledEdge :
    nextOf (exec (.edge 74500 .high) atLast) ≠ none ∧ atLast.enable = true
      ∧ nextOf (exec (.edge 75000 .low) complete) ≠ none ∧ complete.enable = false
      ∧ nextOf (exec (.decode 1 2) atLast) ≠ none ∧ isDecoderOp (.decode 1 2) = true := by decide

theorem witness_EnableFallsOnlyOnCompletion :
    atLast.enable = true ∧ (nextOf (exec (.edge 74500 .high) atLast)).map State.enable = some false
      ∧ complete.enable = false ∧ (nextOf (exec .rearm complete)).map State.enable = some true := by decide

theorem witness_AccumulatorIsWrittenInThreePlaces :
    (nextOf (exec .reset atLast)).map State.acc = some 0 ∧ atLast.acc ≠ 0
      ∧ (nextOf (exec (.edge 5500 .high) (st .searchSyncLow 1 7 1500 true))).map State.acc = some 0
      ∧ (nextOf (exec (.edge 74500 .high) atLast)).map State.acc = some 0x123456789
      ∧ atLast.acc ≠ 0x123456789
      ∧ (nextOf (exec (.sslHFit 0x134 5) (st .searchSyncLow 1 7 1500 true))).map State.acc = some 0
      ∧ (nextOf (exec (.rbeHOne 0x172 5) atLast)).map State.acc = some 0x123456789 := by decide

theorem witness_IdleIsNeverEntered :
    (nextOf (exec (.edge 5 .low) (st .idle 0 0 0 true))).map State.state = some .idle
      ∧ (nextOf (exec .reset (st .idle 0 0 0 true))).map State.state = some .searchSyncHigh := by decide

theorem witness_EachStateConsultsItsOwnFitsOnly :
    (st .searchSyncHigh 0 0 1000 true).enable = true
      ∧ fitSyncHigh config (duration 1500 (1000 : Timestamp)) = fitSyncHigh config (duration 1500 (701 : Timestamp))
      ∧ fitSyncLow config (duration 9000 (5000 : Timestamp)) = fitSyncLow config (duration 9000 (4701 : Timestamp))
      ∧ fitZero config (duration 9000 (8000 : Timestamp)) = fitZero config (duration 9000 (7701 : Timestamp))
      ∧ fitZero config (duration 9000 (7000 : Timestamp)) = fitZero config (duration 9000 (6701 : Timestamp))
      ∧ fitZero config (duration 9000 (7000 : Timestamp)) = false
      ∧ fitOne config (duration 9000 (7000 : Timestamp)) = fitOne config (duration 9000 (6701 : Timestamp))
      ∧ DecState.readBitStart ≠ .readBitEnd := by decide

theorem witness_RearmWithoutResetMayOverrun :
    complete.enable = false ∧ complete.state = .readBitStart ∧ complete.bitCount = 36
      ∧ fitZero config (duration 94000 (90000 : Timestamp)) = false
      ∧ fitOne config (duration 94000 (90000 : Timestamp)) = false
      ∧ fitZero config (duration 91000 (90000 : Timestamp)) = true
      ∧ fitOne config (duration 92000 (90000 : Timestamp)) = true := by decide

theorem witness_SameInstantOrder : complete.enable = false := by decide

theorem witness_UnusedBitsAreIgnored :
    ∀ j, j < 36 → j ≠ 26 → ¬ (8 ≤ j ∧ j ≤ 11) →
      (0x123456789 : BitVec 36).getLsbD j = (0xFF127456089 : BitVec 64).getLsbD j := by decide

theorem witness_TemperatureIsTempRawTenths : Config.tempSigned { config with tempSigned := true } = true := by decide

theorem witness_FrameOfTheTwoComponents :
    nextOf (exec (.edge 74500 .high) atLast) ≠ none ∧ isDecoderOp (.edge 74500 .high) = false
      ∧ nextOf (exec (.fieldTemp 0x123456789) atLast) ≠ none ∧ isDecoderOp (.fieldTemp 0x123456789) = true := by decide

theorem witness_EveryStepKeepsTheInvariant :
    (atLast.present [.cmd 0x300012304]).Inv ∧ nextOf (step (atLast.present [.cmd 0x300012304])) ≠ none
      ∧ complete.Inv := by decide

/-- An armed block with a re-arm waiting, and a completed one with a reset waiting. -/
theorem witness_NoOverrunWithoutABareRearm :
    (State.reset.present [.cmd 0x400000000]).Armed ∧ (State.reset.present [.cmd 0x400000000]).enable = true
      ∧ decode (.cmd 0x400000000) = .rearm
      ∧ (complete.present [.cmd 0x600000000]).Armed ∧ decode (.cmd 0x600000000) ≠ .rearm := by decide

theorem witness_EnvironmentGetsBackWhatTheTableSays : complete.enable = false ∧ atLast.enable = true := by decide

/-- A packet that is ready, a part of it read; and the edge that completes one. -/
theorem witness_EveryInteractionKeepsWhatWasTaken :
    (reader true 0x0FFFFFFFF 0x123456789).Agrees complete ∧ nextOf ((Act.take 0xF00000000).perform complete) ≠ none
      ∧ (reader false 0 0).Agrees atLast ∧ nextOf ((Act.edge 74500 .high 74500).perform atLast) = some complete := by decide

theorem witness_DutifulDecodeReadsThePacketHeld :
    (reader true 0xFFFFFFFFF 0x123456789).Agrees complete
      ∧ readerDuty (reader true 0xFFFFFFFFF 0x123456789) (.decode 0x123456789 99) complete = true
      ∧ nextOf ((Act.decode 0x123456789 99).perform complete) ≠ none
      ∧ ({ reader true 0xFFFFFFFFF 0x123456789 with decoded := true }).Agrees complete
      ∧ ({ reader false 0xFFFFFFFFF 0x123456789 with decoded := true }).Agrees atLast
      ∧ nextOf ((Act.edge 74500 .high 74500).perform atLast) = some complete
      ∧ ({ reader false 0xFFFFFFFFF 0x123456789 with decoded := true }.after (.edge 74500 .high 74500) atLast
          complete).decoded = false := by decide

/-- A reader that has read the packet, one that has not, and the two interactions that allow another `REARM`. -/
theorem witness_ReaderRearmsOncePerPacketReadWhole :
    let read := reader true 0xFFFFFFFFF 0x123456789
    read.Agrees complete ∧ read.checked = true ∧ readerDuty read (.take 1) complete = true
      ∧ (reader false 0 0).Agrees complete ∧ nextOf (Act.poll.perform complete) = some complete
      ∧ ((reader false 0 0).after .poll complete complete).checked = true
      ∧ nextOf (Act.rearm.perform complete) ≠ none ∧ complete.enable = false ∧ readerDuty read .rearm complete = true
      ∧ (reader true 0 0x123456789).Agrees complete ∧ readerDuty (reader true 0 0x123456789) .rearm complete = false
      ∧ ({ read with checked := false, mayRearm := false }).Agrees atLast
      ∧ ({ read with mayRearm := false }.after (.edge 74500 .high 74500) atLast complete).mayRearm = true
      ∧ nextOf ((Act.edge 74500 .high 74500).perform atLast) = some complete
      ∧ nextOf (Act.reset.perform atLast) = some State.reset
      ∧ ({ read with mayRearm := false }.after .reset atLast State.reset).mayRearm = true := by decide

end Sys2Proof.Tests
end

section
/-! PROOFS. The classifier (40_classifier.md): the duration at every timer width (R70), and the order in which an
enabled `ReadBitEnd` consults the two bit profiles (R75). -/

namespace Sys2Proof.Machine

/-- The duration is the difference of the timestamps modulo the timer width (40_classifier.md R70). -/
theorem duration_toNat {tw : Nat} (ts last : BitVec tw) :
    (duration ts last).toNat = (ts.toNat + 2 ^ tw - last.toNat) % 2 ^ tw := by
  have hlast : last.toNat < 2 ^ tw := last.isLt
  rw [duration, BitVec.toNat_sub, Nat.add_comm, ← Nat.add_sub_assoc hlast.le]

@[simp] theorem duration_self {tw : Nat} (ts : BitVec tw) : duration ts ts = 0 :=
  BitVec.sub_self ts

/-- A timer that wrapped once between the two edges: the difference is in range, so nothing is reduced. -/
theorem duration_toNat_of_lt {tw : Nat} (ts last : BitVec tw) (h : ts.toNat < last.toNat) :
    (duration ts last).toNat = ts.toNat + 2 ^ tw - last.toNat := by
  have hrange : ts.toNat + 2 ^ tw - last.toNat < 2 ^ tw := by omega
  rw [duration_toNat, Nat.mod_eq_of_lt hrange]

/-- The fit test is the open interval around the profile (40_classifier.md R71). -/
theorem fits_iff (c : Config) (p d : Nat) : fits c p d = true ↔ (p : Int) - c.tol < d ∧ (d : Int) < p + c.tol := by
  simp [fits]

/-- Two profiles at least two tolerances apart share no duration (40_classifier.md R74, R75). -/
theorem not_fits_both (c : Config) (p q d : Nat) (hpq : p + 2 * c.tol ≤ q) :
    ¬ (fits c p d = true ∧ fits c q d = true) := by
  rw [fits_iff, fits_iff]
  omega

/-- The row selected by a `HIGH` edge of an enabled `ReadBitEnd`: zero first, then one (40_classifier.md R75). -/
theorem selectRow_rbeHigh (c : Config) (ts : Timestamp) (s : State) (he : s.enable = true)
    (hs : s.state = .readBitEnd) :
    selectRow (dispatchWord c ts .high s) =
      if fitZero c (duration ts s.lastTs) then .rbeHZero
      else if fitOne c (duration ts s.lastTs) then .rbeHOne else .rbeHMiss := by
  simp only [dispatchWord, he, hs, selectRow_enabled]

end Sys2Proof.Machine

namespace Sys2Proof.Proofs
open Sys2Proof.Machine

/-- Settles O11: the difference is computed modulo the width, is zero on equal timestamps, and after a wrap needs no
reduction. -/
theorem durationIsTheDifferenceModuloTheWidth : Obligations.DurationIsTheDifferenceModuloTheWidth := by
  unfold Obligations.DurationIsTheDifferenceModuloTheWidth
  intro tw ts last
  refine ⟨duration_toNat ts last, ?_, duration_toNat_of_lt ts last⟩
  rintro rfl
  exact duration_self ts

/-- Settles O15: the selected row tests zero before one for every `Config`, and the literal profiles 1000 and 2000 lie
more than two tolerances of 300 apart. -/
theorem zeroIsEvaluatedBeforeOne : Obligations.ZeroIsEvaluatedBeforeOne := by
  unfold Obligations.ZeroIsEvaluatedBeforeOne
  constructor
  · intro c s ts he hs
    rw [selectRow_rbeHigh c ts s he hs, edge_rbeHigh c ts s he hs]
    constructor
    · intro hzero
      rw [if_pos hzero, if_pos hzero]
      exact ⟨rfl, rfl⟩
    · intro hzero hone
      have hnotZero : ¬ fitZero c (duration ts s.lastTs) = true := by simp [hzero]
      rw [if_neg hnotZero, if_neg hnotZero, if_pos hone, if_pos hone]
      exact ⟨rfl, rfl⟩
  · intro tw d
    exact not_fits_both config config.pZero config.pOne d.toNat (by decide)

end Sys2Proof.Proofs
end

section
/-! PROOFS. The packet assembler (41_assembler.md): a row presented by itself with a word of its own pattern, two
operations in a row, the bits of `acc` after an append (R101), and what a row other than `SSL_H_FIT` leaves (R91). -/

namespace Sys2Proof.Machine

/-- An `EDGE` runs with the default parameters (41_assembler.md R85). -/
theorem exec_edge (ts : Timestamp) (level : Level) (s : State) :
    exec (.edge ts level) s = edge config ts level s := rfl

/-- A row presented by itself is performed if its dispatch word selects it. -/
theorem exec_rowInstr (r : Row) (dw : DispatchWord) (ts : Timestamp) (s : State) :
    exec (rowInstr dw ts r) s = whenSelected r dw s (performRow config r ts s) := by
  cases r <;> rfl

/-- A row presented with a word of its own pattern is performed where the registers hold the pattern's `enable` and
`state`. -/
theorem exec_rowInstr_of_match (r : Row) (dw : DispatchWord) (ts : Timestamp) (s : State)
    (hm : dw &&& rowMask r = rowMatch r)
    (h8 : (rowMask r).getLsbD 8 = true) (h5 : (rowMask r).extractLsb' 5 3 = BitVec.allOnes 3)
    (he : s.enable = (rowMatch r).getLsbD 8) (hs : s.state = stateOf ((rowMatch r).extractLsb' 5 3)) :
    exec (rowInstr dw ts r) s = performRow config r ts s :=
  (exec_rowInstr r dw ts s).trans (whenSelected_true _ _ _ _ (selects_of_match s r dw hm h8 h5 he hs))

@[simp] theorem runAll_nil (s : State) : runAll [] s = .next s := rfl

/-- An operation that answers a next state is followed by the rest of the run from there. -/
theorem runAll_cons_of_next {i : Instr} {s t : State} (is : List Instr) (h : exec i s = .next t) :
    runAll (i :: is) s = runAll is t := by
  rw [runAll, h]

@[simp] theorem runAll_singleton (i : Instr) (s : State) : runAll [i] s = exec i s := by
  rw [runAll]
  cases exec i s <;> rfl

/-- The bits of `acc` after an append: the old ones, and `b` at the counter's position (41_assembler.md R101). -/
theorem accWithBit_getLsbD (b : Bool) (s : State) (j : Nat) :
    (accWithBit b s).getLsbD j = (s.acc.getLsbD j || (b && decide (j = 35 - s.bitCount.toNat))) := by
  have hbit : ((BitVec.ofBool b).setWidth 36 <<< bitPosition s.bitCount).getLsbD j
      = (b && decide (j = 35 - s.bitCount.toNat)) := by
    rw [BitVec.getLsbD_shiftLeft, BitVec.getLsbD_setWidth, BitVec.getLsbD_ofBool, bitPosition]
    by_cases hj : j = 35 - s.bitCount.toNat
    · have hlt : j < 36 := by omega
      simp [← hj, hlt]
    · have hout : j < 35 - s.bitCount.toNat ∨ j - (35 - s.bitCount.toNat) ≠ 0 := by omega
      obtain hlt | hne := hout
      · simp [hj, hlt]
      · simp [hj, hne]
  rw [accWithBit, BitVec.getLsbD_or, hbit]

/-- An append takes no bit from `acc`. -/
@[simp] theorem acc_and_accWithBit (b : Bool) (s : State) : s.acc &&& accWithBit b s = s.acc := by
  apply BitVec.eq_of_getLsbD_eq
  intro j _
  rw [BitVec.getLsbD_and, accWithBit_getLsbD]
  cases s.acc.getLsbD j <;> rfl

/-- An append that answers a next state adds one to the counter and takes no bit from `acc`. -/
theorem append_next_keeps_acc {c : Config} {b : Bool} {s t : State} (h : append c b s = .next t) :
    t.bitCount = s.bitCount + 1 ∧ s.acc &&& t.acc = s.acc := by
  obtain ⟨-, ha⟩ | ⟨-, ha⟩ | ⟨-, ha⟩ := append_cases c b s <;> rw [ha] at h <;> cases h
  · exact ⟨rfl, acc_and_accWithBit b s⟩
  · exact ⟨rfl, acc_and_accWithBit b s⟩

/-- A row other than `SSL_H_FIT` leaves `acc` and the counter, or appends a bit (41_assembler.md R86 to R104). -/
theorem performRow_keeps_or_appends (c : Config) (r : Row) (ts : Timestamp) (s : State) (hr : r ≠ .sslHFit) :
    (∃ t, performRow c r ts s = .next t ∧ t.acc = s.acc ∧ t.bitCount = s.bitCount)
    ∨ ∃ b, performRow c r ts s = append c b (s.setLastTs ts) := by
  cases r
  case sslHFit => exact absurd rfl hr
  case rbeHZero => exact .inr ⟨false, rfl⟩
  case rbeHOne => exact .inr ⟨true, rfl⟩
  all_goals exact .inl ⟨_, rfl, rfl, rfl⟩

end Sys2Proof.Machine

namespace Sys2Proof.Proofs
open Sys2Proof.Machine

/-- Settles O16: the fit selects `SSH_L_FIT`, and so does any word of its pattern. -/
theorem syncHighFitEntersSearchSyncLow : Obligations.SyncHighFitEntersSearchSyncLow := by
  unfold Obligations.SyncHighFitEntersSearchSyncLow
  intro s ts he hs
  constructor
  · intro hfit
    rw [exec_edge, edge_sshLow config ts s he hs, if_pos hfit]
    rfl
  · intro dw hm
    exact exec_rowInstr_of_match .sshLFit dw ts s hm rfl rfl he hs

/-- Settles O18: the row is `SSH_H` whatever the duration fits. -/
theorem highInSearchSyncHighIsIgnored : Obligations.HighInSearchSyncHighIsIgnored := by
  unfold Obligations.HighInSearchSyncHighIsIgnored
  intro s ts he hs
  constructor
  · exact edge_sshHigh config ts s he hs
  · intro dw hm
    exact exec_rowInstr_of_match .sshH dw ts s hm rfl rfl he hs

/-- Settles O19: the fit selects `SSL_H_FIT`, and any other row keeps `acc` and the counter or appends a bit. -/
theorem syncLowFitClearsAndStartsReading : Obligations.SyncLowFitClearsAndStartsReading := by
  unfold Obligations.SyncLowFitClearsAndStartsReading
  constructor
  · intro s ts he hs
    constructor
    · intro hfit
      rw [exec_edge, edge_sslHigh config ts s he hs, if_pos hfit]
      rfl
    · intro dw hm
      exact exec_rowInstr_of_match .sslHFit dw ts s hm rfl rfl he hs
  · intro r ts s t hr ht
    obtain ⟨t', hkeep, hacc, hcount⟩ | ⟨b, happend⟩ := performRow_keeps_or_appends config r ts s hr
    · cases hkeep.symm.trans ht
      exact ⟨.inl hcount, by rw [hacc, BitVec.and_self]⟩
    · obtain ⟨hcount, hacc⟩ := append_next_keeps_acc (happend.symm.trans ht)
      exact ⟨.inr hcount, hacc⟩

/-- Settles O21: the row is `SSL_L`, and a following `HIGH` starts from the state it leaves. -/
theorem lowInSearchSyncLowIsIgnored : Obligations.LowInSearchSyncLowIsIgnored := by
  unfold Obligations.LowInSearchSyncLowIsIgnored
  intro s ts he hs
  have hlow : exec (.edge ts .low) s = .next { s with lastTs := ts } := edge_sslLow config ts s he hs
  refine ⟨hlow, ?_, ?_⟩
  · intro u
    rw [runAll_cons_of_next _ hlow, runAll_singleton]
  · intro dw hm
    exact exec_rowInstr_of_match .sslL dw ts s hm rfl rfl he hs

/-- Settles O22: the row is `RBS_L` whatever the duration fits. -/
theorem lowInReadBitStartOpensTheBit : Obligations.LowInReadBitStartOpensTheBit := by
  unfold Obligations.LowInReadBitStartOpensTheBit
  intro s ts he hs
  constructor
  · exact edge_rbsLow config ts s he hs
  · intro dw hm
    exact exec_rowInstr_of_match .rbsL dw ts s hm rfl rfl he hs

/-- Settles O23: the row is `RBS_H` whatever the duration fits. -/
theorem highInReadBitStartIsIgnored : Obligations.HighInReadBitStartIsIgnored := by
  unfold Obligations.HighInReadBitStartIsIgnored
  intro s ts he hs
  constructor
  · exact edge_rbsHigh config ts s he hs
  · intro dw hm
    exact exec_rowInstr_of_match .rbsH dw ts s hm rfl rfl he hs

/-- Settles O27: the row is `RBE_L`, and a following `HIGH` starts from the state it leaves. -/
theorem lowInReadBitEndIsIgnored : Obligations.LowInReadBitEndIsIgnored := by
  unfold Obligations.LowInReadBitEndIsIgnored
  intro s ts he hs
  have hlow : exec (.edge ts .low) s = .next { s with lastTs := ts } := edge_rbeLow config ts s he hs
  refine ⟨hlow, ?_, ?_⟩
  · intro u
    rw [runAll_cons_of_next _ hlow, runAll_singleton]
  · intro dw hm
    exact exec_rowInstr_of_match .rbeL dw ts s hm rfl rfl he hs

/-- Settles O33: of the three cases of an append, the overrun is shut out, and the two others write the same `acc` and
counter. -/
theorem appendWritesPosition35MinusCounter : Obligations.AppendWritesPosition35MinusCounter := by
  unfold Obligations.AppendWritesPosition35MinusCounter
  intro c b s hk
  have hcount : (s.bitCount + 1).toNat = s.bitCount.toNat + 1 :=
    BitVec.toNat_add_of_lt (show s.bitCount.toNat + 1 < 2 ^ 6 by omega)
  obtain ⟨hover, -⟩ | ⟨hlast, ha⟩ | ⟨hbelow, ha⟩ := append_cases c b s
  · omega
  · refine ⟨_, ha, accWithBit_getLsbD b s, hcount, fun _ => ⟨rfl, rfl⟩, ?_, rfl, rfl, rfl⟩
    intro hne
    omega
  · refine ⟨_, ha, accWithBit_getLsbD b s, hcount, ?_, fun _ => ⟨rfl, rfl⟩, rfl, rfl, rfl⟩
    intro heq
    omega

end Sys2Proof.Proofs
end

section
/-! PROOFS. The control operations (42_control_ops.md): what `NOP` leaves (R112). -/

namespace Sys2Proof.Machine

/-- `NOP` writes nothing (42_control_ops.md R112). -/
@[simp] theorem exec_nop (s : State) : exec .nop s = .next s := rfl

end Sys2Proof.Machine

namespace Sys2Proof.Proofs
open Sys2Proof.Machine

/-- Settles O8: `NOP` goes on in the state it found. -/
theorem nopWritesNothing : Obligations.NopWritesNothing := by
  unfold Obligations.NopWritesNothing
  intro s
  exact exec_nop s

end Sys2Proof.Proofs
end

section
/-! PROOFS. Decoding and encoding (30_encoding.md): instructions by the port they arrive at, the fields of a command
word (R46), and the one row that each dispatch word selects (R52). -/

namespace Sys2Proof.Machine

/-- Two rows of the dispatch map with a word in common are the same row. -/
theorem row_unique (r q : Row) (dw : DispatchWord) (hr : dw &&& rowMask r = rowMatch r)
    (hq : dw &&& rowMask q = rowMatch q) : r = q := by
  have hagree : rowMatch r &&& rowMask q = rowMatch q &&& rowMask r := by
    rw [← hr, ← hq, BitVec.and_assoc, BitVec.and_assoc, BitVec.and_comm (rowMask r)]
  have hdisjoint : ∀ r q : Row, rowMatch r &&& rowMask q = rowMatch q &&& rowMask r → r = q := by
    intro r q
    cases r <;> cases q <;> decide
  exact hdisjoint r q hagree

/-- Every dispatch word is made of its fields (30_encoding.md R51). -/
theorem dispatchPack_fields (dw : DispatchWord) :
    dispatchPack (dispatchEnable dw) (dispatchState dw) (levelOf (dw.extractLsb' 4 1)) (dw.getLsbD 3) (dw.getLsbD 2)
      (dw.getLsbD 1) (dw.getLsbD 0) = dw := by
  rw [dispatchPack, dispatchEnable, dispatchState, stateCode_stateOf, levelCode_levelOf]
  apply BitVec.eq_of_getLsbD_eq
  intro i hi
  refine (BitVec.getLsbD_append ..).trans ?_
  simp only [BitVec.getLsbD_append]
  interval_cases i <;> simp

/-- The row a word selects matches the word, so the last case of `selectRow` is never missed (30_encoding.md R52). -/
theorem rowMatches_selectRow (dw : DispatchWord) : rowMatches (selectRow dw) dw = true := by
  rw [← dispatchPack_fields dw]
  generalize dispatchEnable dw = e, dispatchState dw = st, levelOf (dw.extractLsb' 4 1) = l, dw.getLsbD 3 = h,
    dw.getLsbD 2 = w, dw.getLsbD 1 = o, dw.getLsbD 0 = z
  cases e
  · rw [selectRow_disabled]
    cases st <;> cases l <;> cases h <;> cases w <;> cases o <;> cases z <;> rfl
  · rw [selectRow_enabled]
    cases st <;> cases l <;> cases h <;> cases w <;> cases o <;> cases z <;> rfl

theorem rowMatches_iff (r : Row) (dw : DispatchWord) : rowMatches r dw = true ↔ dw &&& rowMask r = rowMatch r :=
  beq_iff_eq

/-- A word is of a row's pattern exactly when it selects the row (30_encoding.md R52). -/
theorem selectRow_eq_iff (dw : DispatchWord) (r : Row) : selectRow dw = r ↔ dw &&& rowMask r = rowMatch r := by
  have hsel := (rowMatches_iff _ _).1 (rowMatches_selectRow dw)
  constructor
  · rintro rfl
    exact hsel
  · exact row_unique _ _ dw hsel

/-- Every instruction, by the port it arrives at: the four commands, a dispatch row, a `DECODE`, a packet field. -/
theorem instr_by_port {motive : Instr → Prop} (nop : motive .nop) (edge : ∀ ts level, motive (.edge ts level))
    (rearm : motive .rearm) (reset : motive .reset) (row : ∀ dw ts r, motive (rowInstr dw ts r))
    (decode : ∀ packet now, motive (.decode packet now)) (field : ∀ packet f, motive (fieldInstr packet f))
    (i : Instr) : motive i := by
  cases i
  case nop => exact nop
  case edge ts level => exact edge ts level
  case rearm => exact rearm
  case reset => exact reset
  case guard dw ts => exact row dw ts .guard
  case sshLFit dw ts => exact row dw ts .sshLFit
  case sshLMiss dw ts => exact row dw ts .sshLMiss
  case sshH dw ts => exact row dw ts .sshH
  case sslHFit dw ts => exact row dw ts .sslHFit
  case sslHMiss dw ts => exact row dw ts .sslHMiss
  case sslL dw ts => exact row dw ts .sslL
  case rbsL dw ts => exact row dw ts .rbsL
  case rbsH dw ts => exact row dw ts .rbsH
  case rbeHZero dw ts => exact row dw ts .rbeHZero
  case rbeHOne dw ts => exact row dw ts .rbeHOne
  case rbeHMiss dw ts => exact row dw ts .rbeHMiss
  case rbeL dw ts => exact row dw ts .rbeL
  case idleAny dw ts => exact row dw ts .idleAny
  case rsvd5 dw ts => exact row dw ts .rsvd5
  case rsvd67 dw ts => exact row dw ts .rsvd67
  case decode packet now => exact decode packet now
  case fieldId packet => exact field packet .id
  case fieldBattery packet => exact field packet .battery
  case fieldUnused26 packet => exact field packet .unused26
  case fieldChannel packet => exact field packet .channel
  case fieldTemp packet => exact field packet .tempRaw
  case fieldPad packet => exact field packet .pad
  case fieldHumidity packet => exact field packet .humidity

@[simp] theorem encode_rowInstr (dw : DispatchWord) (ts : Timestamp) (r : Row) :
    encode (rowInstr dw ts r) = .row dw ts := by
  cases r <;> rfl

@[simp] theorem wellFormed_rowInstr (dw : DispatchWord) (ts : Timestamp) (r : Row) :
    (rowInstr dw ts r).wellFormed = rowMatches r dw := by
  cases r <;> rfl

@[simp] theorem encode_fieldInstr (packet : DecPacket) (f : PacketField) :
    encode (fieldInstr packet f) = .field f packet := by
  cases f <;> rfl

@[simp] theorem wellFormed_fieldInstr (packet : DecPacket) (f : PacketField) :
    (fieldInstr packet f).wellFormed = true := by
  cases f <;> rfl

/-- A command word is made of its fields (30_encoding.md R46). -/
theorem cmdWord_fields (w : CmdWord) : cmdWord (cmdCode w) (levelCode (cmdLevel w)) (cmdTs w) = w := by
  apply BitVec.eq_of_getLsbD_eq
  intro i hi
  rw [cmdWord_getLsbD, cmdLevel, levelCode_levelOf]
  split
  · simp [cmdTs, *]
  · split
    · obtain rfl : i = 32 := by omega
      simp
    · have hcode : i - 32 - 1 < 2 := by omega
      have hplace : 33 + (i - 32 - 1) = i := by omega
      simp [cmdCode, hcode, hplace]

/-- The mask of bits 34:33 zeroes the fields `level` and `ts` (30_encoding.md R46). -/
theorem cmdWord_mask (code : BitVec 2) (level : BitVec 1) (ts : Timestamp) :
    cmdWord code level ts &&& 0x600000000 = cmdWord code 0 0 := by
  rw [show (0x600000000 : CmdWord) = cmdWord 3 0 0 from rfl]
  apply BitVec.eq_of_getLsbD_eq
  intro i hi
  rw [BitVec.getLsbD_and, cmdWord_getLsbD, cmdWord_getLsbD, cmdWord_getLsbD]
  have hall : ∀ j < 2, (3 : BitVec 2).getLsbD j = true := by decide
  split
  · simp
  · split
    · simp
    · rw [hall _ (by omega), Bool.and_true]

/-- The four operations of a command word (30_encoding.md R46). -/
theorem decodeCmd_cases (w : CmdWord) :
    (cmdCode w = 0 ∧ decodeCmd w = .nop) ∨ (cmdCode w = 1 ∧ decodeCmd w = .edge (cmdTs w) (cmdLevel w))
    ∨ (cmdCode w = 2 ∧ decodeCmd w = .rearm) ∨ (cmdCode w = 3 ∧ decodeCmd w = .reset) := by
  have hcode : ∀ code : BitVec 2, code = 0 ∨ code = 1 ∨ code = 2 ∨ code = 3 := by decide
  rw [decodeCmd]
  obtain h | h | h | h := hcode (cmdCode w) <;> rw [h]
  · exact .inl ⟨rfl, rfl⟩
  · exact .inr (.inl ⟨rfl, rfl⟩)
  · exact .inr (.inr (.inl ⟨rfl, rfl⟩))
  · exact .inr (.inr (.inr ⟨rfl, rfl⟩))

/-- Bits 34:33 of a command word as arithmetic (30_encoding.md R46). -/
theorem cmdCode_toNat (w : CmdWord) : (cmdCode w).toNat = w.toNat / 2 ^ 33 := by
  have hw : w.toNat < 2 ^ 35 := w.isLt
  rw [cmdCode, BitVec.extractLsb'_toNat, Nat.shiftRight_eq_div_pow]
  omega

/-- A field of one bit is the bit (30_encoding.md R56 c). -/
theorem extractLsb'_one {n : Nat} (x : BitVec n) (start : Nat) :
    x.extractLsb' start 1 = BitVec.ofBool (x.getLsbD start) := by
  apply BitVec.eq_of_getLsbD_eq
  intro i hi
  obtain rfl : i = 0 := by omega
  simp

/-- `HIGH` is bit 32 set (30_encoding.md R46, R47). -/
theorem cmdLevel_eq (w : CmdWord) : cmdLevel w = if w.getLsbD 32 then .high else .low := by
  rw [cmdLevel, extractLsb'_one]
  cases w.getLsbD 32 <;> rfl

/-- The decoding of a command word, encoded: the word itself for `EDGE`, else its ignored fields zeroed. -/
theorem encode_decodeCmd (w : CmdWord) :
    encode (decodeCmd w)
      = if w &&& 0x600000000 = 0x200000000 then .cmd w else .cmd (w &&& 0x600000000) := by
  rw [← cmdWord_fields w, cmdWord_mask, cmdWord_fields]
  obtain ⟨hc, hd⟩ | ⟨hc, hd⟩ | ⟨hc, hd⟩ | ⟨hc, hd⟩ := decodeCmd_cases w <;> rw [hd, hc]
  · rfl
  · rw [if_pos (show cmdWord 1 0 0 = 0x200000000 from rfl), encode, ← hc, cmdWord_fields]
  · rfl
  · rfl

/-- Every instruction read from a command word is well-formed (30_encoding.md R57). -/
theorem wellFormed_decodeCmd (w : CmdWord) : (decodeCmd w).wellFormed = true := by
  obtain ⟨-, hd⟩ | ⟨-, hd⟩ | ⟨-, hd⟩ | ⟨-, hd⟩ := decodeCmd_cases w <;> rw [hd] <;> rfl

/-- A dispatch word decodes to the row it matches (30_encoding.md R52). -/
theorem decode_row_of_rowMatches (dw : DispatchWord) (ts : Timestamp) (r : Row) (h : rowMatches r dw = true) :
    decode (.row dw ts) = rowInstr dw ts r := by
  rw [decode, (selectRow_eq_iff dw r).2 ((rowMatches_iff r dw).1 h)]

/-- The timestamp and the level of an `EDGE` are read back (30_encoding.md R46). -/
theorem decode_encode_edge (ts : Timestamp) (level : Level) : decode (encode (.edge ts level)) = .edge ts level := by
  simp [encode, decode, decodeCmd]

end Sys2Proof.Machine

namespace Sys2Proof.Proofs
open Sys2Proof.Machine

/-- Settles O2: the fields of a command word are read back, and a row's word is well-formed exactly when it selects the
row. -/
theorem decodeOfEncodeIsTheInstruction : Obligations.DecodeOfEncodeIsTheInstruction := by
  unfold Obligations.DecodeOfEncodeIsTheInstruction
  intro i hwf
  induction i using instr_by_port with
  | nop => rfl
  | edge ts level => exact decode_encode_edge ts level
  | rearm => rfl
  | reset => rfl
  | row dw ts r =>
    rw [wellFormed_rowInstr] at hwf
    rw [encode_rowInstr, decode_row_of_rowMatches dw ts r hwf]
  | decode packet now => rfl
  | field packet f => rw [encode_fieldInstr]; rfl

/-- Settles O3, port by port: a command word by its code, a dispatch word by the row it selects. -/
theorem everyWordDecodesAndReencodes : Obligations.EveryWordDecodesAndReencodes := by
  unfold Obligations.EveryWordDecodesAndReencodes
  intro r
  cases r with
  | cmd w => exact ⟨wellFormed_decodeCmd w, encode_decodeCmd w⟩
  | row dw ts => exact ⟨(wellFormed_rowInstr ..).trans (rowMatches_selectRow dw), encode_rowInstr ..⟩
  | decode packet now => exact ⟨rfl, rfl⟩
  | field f packet => exact ⟨wellFormed_fieldInstr packet f, encode_fieldInstr packet f⟩

/-- Settles O6: the four codes are the quotients of the word by `2 ^ 33`. -/
theorem commandFieldsAreWhereTheFormatSays : Obligations.CommandFieldsAreWhereTheFormatSays := by
  unfold Obligations.CommandFieldsAreWhereTheFormatSays
  intro w
  rw [← cmdCode_toNat]
  have hts : cmdTs w = w.setWidth 32 := BitVec.setWidth_eq_extractLsb' (by decide) |>.symm
  rw [← hts, ← cmdLevel_eq]
  obtain ⟨hc, hd⟩ | ⟨hc, hd⟩ | ⟨hc, hd⟩ | ⟨hc, hd⟩ := decodeCmd_cases w <;> simp [hc, hd, decode]

/-- Settles O4: each word matches the row it selects, and no two rows share a word. -/
theorem dispatchRowsPartitionAllWords : Obligations.DispatchRowsPartitionAllWords := by
  unfold Obligations.DispatchRowsPartitionAllWords
  intro dw r
  exact (selectRow_eq_iff dw r).symm

/-- Settles O5: the decoder run on each of the words. -/
theorem sampleWordsDecode : Obligations.SampleWordsDecode := by
  unfold Obligations.SampleWordsDecode
  decide

end Sys2Proof.Proofs
end

section
/-! PROOFS. What every step keeps: the invariant of 10_state.md R23, and the readiness of an armed block
(70_reset_and_hazards.md R160). -/

namespace Sys2Proof.Machine

/-- A bit is not both set and clear. -/
theorem absurd_of_true_of_false {b : Bool} {p : Prop} (ht : b = true) (hf : b = false) : p :=
  absurd ht (Bool.eq_false_iff.1 hf)

/-- The lowest `m` bits of a word are zero exactly when `2 ^ m` divides it (R23 (b)). -/
theorem toNat_mod_two_pow_eq_zero_iff {n : Nat} (x : BitVec n) (m : Nat) :
    x.toNat % 2 ^ m = 0 ↔ ∀ j < m, x.getLsbD j = false := by
  constructor
  · intro h j hj
    have hbit : (x.toNat % 2 ^ m).testBit j = x.getLsbD j := by
      rw [Nat.testBit_mod_two_pow, decide_eq_true hj, Bool.true_and, BitVec.testBit_toNat]
    rw [← hbit, h, Nat.zero_testBit]
  · intro h
    apply Nat.eq_of_testBit_eq
    intro j
    rw [Nat.testBit_mod_two_pow, BitVec.testBit_toNat, Nat.zero_testBit]
    by_cases hj : j < m
    · rw [h j hj, Bool.and_false]
    · rw [decide_eq_false hj, Bool.false_and]

/-- Below its largest value the counter counts without a wrap. -/
theorem bitCount_add_one_toNat (k : Count) (h : k.toNat < 63) : (k + 1).toNat = k.toNat + 1 :=
  BitVec.toNat_add_of_lt (show k.toNat + 1 < 2 ^ 6 by omega)

/-- The counter of a completed packet (41_assembler.md R102). -/
theorem bitCount_add_one_of_last (k : Count) (h : k.toNat = 35) : k + 1 = 36 :=
  BitVec.eq_of_toNat_eq (by rw [bitCount_add_one_toNat k (by omega), h]; rfl)

/-- An append moves the lowest bit of `acc` that may be set down by one (R23 (b), 41_assembler.md R101). -/
theorem accWithBit_low_zero (b : Bool) (s : State) (hk : s.bitCount.toNat ≤ 35)
    (h : s.acc.toNat % 2 ^ (36 - s.bitCount.toNat) = 0) :
    (accWithBit b s).toNat % 2 ^ (36 - (s.bitCount + 1).toNat) = 0 := by
  rw [bitCount_add_one_toNat _ (by omega)]
  rw [toNat_mod_two_pow_eq_zero_iff] at h ⊢
  intro j hj
  have hbelow : j ≠ 35 - s.bitCount.toNat := by omega
  rw [accWithBit_getLsbD, h j (by omega), decide_eq_false hbelow, Bool.and_false, Bool.or_false]

/-- The registers after `RESET` (42_control_ops.md R111), which no other field changes. -/
theorem resetRegisters_config (s : State) :
    resetRegisters config s
      = { s with state := .searchSyncHigh, acc := 0, bitCount := 0, lastTs := 0, enable := true } := rfl

/-- The queue of presented operations is no part of the invariant. -/
theorem inv_setInputs (s : State) (rest : List Request) : (s.setInputs rest).Inv ↔ s.Inv := Iff.rfl

/-- Every operation that answers a next state keeps the invariant (10_state.md R23). -/
theorem exec_keeps_inv (i : Instr) (s t : State) (hinv : s.Inv) (h : exec i s = .next t) : t.Inv := by
  obtain ⟨hcount, hacc, hdone, hreach⟩ := hinv
  cases exec_next i s t h with
  | none => exact ⟨hcount, hacc, hdone, hreach⟩
  | rearm => exact ⟨hcount, hacc, nofun, hreach⟩
  | reset =>
    rw [resetRegisters_config]
    exact ⟨Nat.zero_le _, Nat.zero_mod _, nofun, rfl⟩
  | output => exact ⟨hcount, hacc, hdone, hreach⟩
  | held => exact ⟨hcount, hacc, hdone, hreach⟩
  | aborted _ _ he => exact ⟨hcount, hacc, absurd_of_true_of_false he, rfl⟩
  | syncHigh _ _ he => exact ⟨hcount, hacc, absurd_of_true_of_false he, rfl⟩
  | acquired _ _ _ he => exact ⟨Nat.zero_le _, Nat.zero_mod _, absurd_of_true_of_false he, rfl⟩
  | opened _ _ he => exact ⟨hcount, hacc, absurd_of_true_of_false he, rfl⟩
  | appended ts b _ _ he _ hk =>
    have hnext := bitCount_add_one_toNat s.bitCount (by omega)
    exact ⟨by simp only [hnext]; omega, accWithBit_low_zero b s (by omega) hacc,
      absurd_of_true_of_false he, rfl⟩
  | completed ts b _ _ _ _ hk =>
    have hfull : s.bitCount + 1 = 36 := bitCount_add_one_of_last s.bitCount hk
    exact ⟨by simp only [hfull]; decide, accWithBit_low_zero b s (by omega) hacc, fun _ => ⟨hfull, rfl⟩, rfl⟩

/-- An operation keeps an armed block armed, unless it is the `REARM` of a disabled block that holds 36 bits
(70_reset_and_hazards.md R160). -/
theorem exec_keeps_armed (i : Instr) (s t : State) (hArmed : s.Armed) (h : exec i s = .next t)
    (hrearm : i = .rearm → s.enable = true ∨ s.bitCount.toNat < 36) : t.Armed := by
  cases exec_next i s t h with
  | none => exact hArmed
  | rearm hi => exact fun _ => (hrearm hi).elim hArmed id
  | reset => exact fun _ => (by decide : (0 : Count).toNat < 36)
  | output => exact hArmed
  | held => exact hArmed
  | aborted => exact hArmed
  | syncHigh => exact hArmed
  | acquired => exact fun _ => (by decide : (0 : Count).toNat < 36)
  | opened => exact hArmed
  | appended ts b _ _ _ _ hk =>
    have hnext := bitCount_add_one_toNat s.bitCount (by omega)
    exact fun _ => by simp only [hnext]; omega
  | completed => exact nofun

/-- An armed block stops at no operation (41_assembler.md R103). -/
theorem exec_next_of_armed (i : Instr) (s : State) (hArmed : s.Armed) : ∃ t, exec i s = .next t := by
  obtain hnext | ⟨-, he, -, hk⟩ := exec_stops i s
  · exact hnext
  · exact absurd (hArmed he) (by omega)

end Sys2Proof.Machine

namespace Sys2Proof.Proofs
open Sys2Proof.Machine

/-- Settles O55: a step with nothing presented changes nothing, and one with an operation presented performs it, which
keeps the invariant. -/
theorem everyStepKeepsTheInvariant : Obligations.EveryStepKeepsTheInvariant := by
  unfold Obligations.EveryStepKeepsTheInvariant
  intro s t hinv hstep
  obtain ⟨-, hnone⟩ | ⟨r, rest, -, hone⟩ := step_cases s
  · cases hnone.symm.trans hstep
    exact hinv
  · exact exec_keeps_inv (decode r) (s.setInputs rest) t ((inv_setInputs s rest).2 hinv) (hone.symm.trans hstep)

/-- Settles O54: each part of the invariant, at the reset values. -/
theorem resetMeetsTheInvariant : Obligations.ResetMeetsTheInvariant := by
  unfold Obligations.ResetMeetsTheInvariant
  decide

/-- Settles O56: an armed block stops at no operation, and only the re-arm that the hypothesis shuts out disarms it. -/
theorem noOverrunWithoutABareRearm : Obligations.NoOverrunWithoutABareRearm := by
  unfold Obligations.NoOverrunWithoutABareRearm
  intro s hArmed hrearm
  obtain ⟨-, hnone⟩ | ⟨r, rest, hin, hone⟩ := step_cases s
  · exact ⟨s, hnone, hArmed⟩
  · obtain ⟨t, ht⟩ := exec_next_of_armed (decode r) (s.setInputs rest) hArmed
    exact ⟨t, hone.trans ht, exec_keeps_armed (decode r) (s.setInputs rest) t hArmed ht (hrearm r rest hin)⟩

/-- Settles O7: the oldest request is decoded and performed, and decoding undoes encoding (O2). -/
theorem stepPerformsTheOldestOperation : Obligations.StepPerformsTheOldestOperation := by
  unfold Obligations.StepPerformsTheOldestOperation
  intro s
  refine ⟨step_empty s, step_cons s, ?_⟩
  intro i rest hwf hin
  have hdecode : decode (encode i) = i := decodeOfEncodeIsTheInstruction i hwf
  exact (step_cons s (encode i) rest hin).trans (congrArg (exec · _) hdecode)

/-- Settles O1: the table of R24, read off the model's reset state. -/
theorem resetHoldsTheResetTable : Obligations.ResetHoldsTheResetTable := by
  unfold Obligations.ResetHoldsTheResetTable
  exact ⟨rfl, rfl, rfl, rfl⟩

end Sys2Proof.Proofs
end

section
/-! PROOFS. The windows of the classifier as numbers (40_classifier.md R72) and the fit vectors that occur (R74). -/

namespace Sys2Proof.Machine

theorem fits_eq_false_iff (c : Config) (p d : Nat) :
    fits c p d = false ↔ (d : Int) ≤ (p : Int) - c.tol ∨ (p : Int) + c.tol ≤ d := by
  rw [← Bool.not_eq_true, fits_iff]
  omega

/-- A default window as numbers (40_classifier.md R72). -/
theorem fits_config_iff (p d : Nat) (hp : 300 ≤ p) : fits config p d = true ↔ p - 299 ≤ d ∧ d ≤ p + 299 := by
  rw [fits_iff, show config.tol = 300 from rfl]
  omega

section
variable {tw : Nat} (d : BitVec tw)

theorem fitSyncHigh_iff : fitSyncHigh config d = true ↔ 201 ≤ d.toNat ∧ d.toNat ≤ 799 :=
  fits_config_iff 500 d.toNat (by decide)

theorem fitSyncLow_iff : fitSyncLow config d = true ↔ 3701 ≤ d.toNat ∧ d.toNat ≤ 4299 :=
  fits_config_iff 4000 d.toNat (by decide)

theorem fitOne_iff : fitOne config d = true ↔ 1701 ≤ d.toNat ∧ d.toNat ≤ 2299 :=
  fits_config_iff 2000 d.toNat (by decide)

theorem fitZero_iff : fitZero config d = true ↔ 701 ≤ d.toNat ∧ d.toNat ≤ 1299 :=
  fits_config_iff 1000 d.toNat (by decide)

/-- The windows more than two tolerances apart shut each other out: only sync high and zero overlap (R74). -/
theorem fits_exclusive :
    ¬ (fitSyncHigh config d = true ∧ fitOne config d = true)
    ∧ ¬ (fitSyncHigh config d = true ∧ fitSyncLow config d = true)
    ∧ ¬ (fitZero config d = true ∧ fitOne config d = true)
    ∧ ¬ (fitZero config d = true ∧ fitSyncLow config d = true)
    ∧ ¬ (fitOne config d = true ∧ fitSyncLow config d = true) :=
  ⟨not_fits_both config config.pSyncHigh config.pOne _ (by decide),
    not_fits_both config config.pSyncHigh config.pSyncLow _ (by decide),
    not_fits_both config config.pZero config.pOne _ (by decide),
    not_fits_both config config.pZero config.pSyncLow _ (by decide),
    not_fits_both config config.pOne config.pSyncLow _ (by decide)⟩

/-- Sync high and zero both fit exactly from 701 to 799, the overlap of their windows (R74). -/
theorem fitVector_eq_overlap_iff :
    fitVector config d = 0b1001#4 ↔ 701 ≤ d.toNat ∧ d.toNat ≤ 799 := by
  have hboth : 701 ≤ d.toNat ∧ d.toNat ≤ 799 ↔ fitSyncHigh config d = true ∧ fitZero config d = true := by
    rw [fitSyncHigh_iff, fitZero_iff]
    omega
  obtain ⟨hho, hhw, -, -, -⟩ := fits_exclusive d
  rw [hboth, fitVector]
  generalize fitSyncHigh config d = h, fitSyncLow config d = w, fitOne config d = o, fitZero config d = z at hho hhw
  revert h w o z
  decide

/-- No fit vector but these six occurs (R74). -/
theorem fitVector_mem :
    fitVector config d ∈ [0b0000#4, 0b1000#4, 0b1001#4, 0b0001#4, 0b0010#4, 0b0100#4] := by
  have hex := fits_exclusive d
  rw [fitVector]
  generalize fitSyncHigh config d = h, fitSyncLow config d = w, fitOne config d = o, fitZero config d = z at hex
  revert h w o z
  decide

end

/-- The fit vector depends on the number alone, at whatever width (40_classifier.md R73). -/
theorem fitVector_ofNat {tw : Nat} (c : Config) (n : Nat) (h : n < 2 ^ 13) (htw : 13 ≤ tw) :
    fitVector c (BitVec.ofNat tw n) = fitVector c (BitVec.ofNat 13 n) := by
  have hn : n < 2 ^ tw := h.trans_le (Nat.pow_le_pow_right (by decide) htw)
  simp only [fitVector, fitSyncHigh, fitSyncLow, fitOne, fitZero, BitVec.toNat_ofNat, Nat.mod_eq_of_lt h,
    Nat.mod_eq_of_lt hn]

end Sys2Proof.Machine

namespace Sys2Proof.Proofs
open Sys2Proof.Machine

/-- Settles O12: the comparison is of integers, and both boundaries are shut out. -/
theorem fitIsTheOpenInterval : Obligations.FitIsTheOpenInterval := by
  unfold Obligations.FitIsTheOpenInterval
  intro c p d
  refine ⟨fits_iff c p d, ?_, ?_⟩
  · rw [fits_eq_false_iff]
    omega
  · intro htol
    rw [fits_eq_false_iff]
    omega

/-- Settles O13, window by window. -/
theorem windowsOfTheFourProfiles : Obligations.WindowsOfTheFourProfiles := by
  unfold Obligations.WindowsOfTheFourProfiles
  intro tw d
  exact ⟨fitSyncHigh_iff d, fitSyncLow_iff d, fitOne_iff d, fitZero_iff d⟩

/-- Settles O14: the exclusive windows leave six vectors, and 0, 201, 701, 800, 1701 and 3701 have them. -/
theorem fitVectorsThatOccur : Obligations.FitVectorsThatOccur := by
  unfold Obligations.FitVectorsThatOccur
  refine ⟨fun tw d => ⟨fitVector_mem d, fitVector_eq_overlap_iff d⟩, ?_⟩
  intro tw htw v hv
  have hreached : ∃ n < 2 ^ 13, fitVector config (BitVec.ofNat 13 n) = v := by
    simp only [List.mem_cons, List.not_mem_nil, or_false] at hv
    obtain rfl | rfl | rfl | rfl | rfl | rfl := hv
    · exact ⟨0, by decide, by decide⟩
    · exact ⟨201, by decide, by decide⟩
    · exact ⟨701, by decide, by decide⟩
    · exact ⟨800, by decide, by decide⟩
    · exact ⟨1701, by decide, by decide⟩
    · exact ⟨3701, by decide, by decide⟩
  obtain ⟨n, hn, hv⟩ := hreached
  exact ⟨BitVec.ofNat tw n, (fitVector_ofNat config n hn htw).trans hv⟩

end Sys2Proof.Proofs
end

section
/-! PROOFS. The rows of the dispatch map as the operations of an `EDGE` (41_assembler.md): the append rows, the rows
that abort or hold, and the transition table they come to. -/

namespace Sys2Proof.Machine

/-- An edge of a disabled block changes nothing (41_assembler.md R86). -/
theorem exec_edge_disabled (ts : Timestamp) (level : Level) (s : State) (he : s.enable = false) :
    exec (.edge ts level) s = .next s :=
  edge_disabled config ts level s he

/-- The bit that an append of a one sets, as a power of two (41_assembler.md R101). -/
theorem accWithBit_true (s : State) :
    accWithBit true s = s.acc ||| BitVec.ofNat 36 (2 ^ (35 - s.bitCount.toNat)) := by
  apply BitVec.eq_of_getLsbD_eq
  intro j hj
  rw [accWithBit_getLsbD, BitVec.getLsbD_or, BitVec.getLsbD_ofNat, Nat.testBit_two_pow, decide_eq_true hj,
    Bool.true_and, Bool.true_and]
  simp only [@eq_comm _ j]

/-- An append below 36 bits, the completing one included (41_assembler.md R101, R102; decision D9, log 9). -/
theorem append_below (b : Bool) (s : State) (he : s.enable = true) (hk : s.bitCount.toNat < 36) :
    append config b s
      = .next { s with acc := accWithBit b s, bitCount := s.bitCount + 1, state := .readBitStart,
                       enable := decide (s.bitCount.toNat ≠ 35) } := by
  obtain ⟨hover, -⟩ | ⟨hlast, ha⟩ | ⟨hbelow, ha⟩ := append_cases config b s
  · omega
  · rw [ha, decide_eq_false (not_not.2 hlast)]
    rfl
  · rw [ha, decide_eq_true (show s.bitCount.toNat ≠ 35 by omega), ← he]

/-- What an operation comes to that appends the bit `b` at the time `ts` (41_assembler.md R101 to R103). -/
theorem append_row (b : Bool) (ts : Timestamp) (s : State) (i : Instr) (he : s.enable = true)
    (hi : exec i s = append config b (s.setLastTs ts)) :
    (s.bitCount.toNat < 36 →
      exec i s = .next { s with acc := accWithBit b s, bitCount := s.bitCount + 1, state := .readBitStart,
                                lastTs := ts, enable := decide (s.bitCount.toNat ≠ 35) })
    ∧ (36 ≤ s.bitCount.toNat → exec i s = .fault .overrun) :=
  ⟨fun hk => hi.trans (append_below b (s.setLastTs ts) he hk),
    fun hk => hi.trans (append_overruns config b (s.setLastTs ts) hk)⟩

/-- A `HIGH` after a pulse that fits zero appends a zero (41_assembler.md R96). -/
theorem exec_edge_appends_zero (ts : Timestamp) (s : State) (he : s.enable = true) (hs : s.state = .readBitEnd)
    (hfit : fitZero config (duration ts s.lastTs) = true) :
    exec (.edge ts .high) s = append config false (s.setLastTs ts) := by
  rw [exec_edge, edge_rbeHigh config ts s he hs, if_pos hfit]
  rfl

/-- A `HIGH` after a pulse that fits one appends a one (41_assembler.md R97). -/
theorem exec_edge_appends_one (ts : Timestamp) (s : State) (he : s.enable = true) (hs : s.state = .readBitEnd)
    (hfit : fitOne config (duration ts s.lastTs) = true) :
    exec (.edge ts .high) s = append config true (s.setLastTs ts) := by
  obtain ⟨-, -, hzeroOne, -, -⟩ := fits_exclusive (duration ts s.lastTs)
  rw [exec_edge, edge_rbeHigh config ts s he hs, if_neg fun hzero => hzeroOne ⟨hzero, hfit⟩, if_pos hfit]
  rfl

/-- A `HIGH` after a pulse that fits a bit overruns where 36 bits are held (41_assembler.md R103). -/
theorem exec_edge_overruns (ts : Timestamp) (s : State) (he : s.enable = true) (hs : s.state = .readBitEnd)
    (hk : 36 ≤ s.bitCount.toNat)
    (hfit : fitZero config (duration ts s.lastTs) = true ∨ fitOne config (duration ts s.lastTs) = true) :
    exec (.edge ts .high) s = .fault .overrun := by
  obtain hzero | hone := hfit
  · exact (append_row false ts s _ he (exec_edge_appends_zero ts s he hs hzero)).2 hk
  · exact (append_row true ts s _ he (exec_edge_appends_one ts s he hs hone)).2 hk

/-- A `HIGH` after a pulse that fits neither bit aborts the packet (41_assembler.md R99). -/
theorem exec_edge_aborts (ts : Timestamp) (s : State) (he : s.enable = true) (hs : s.state = .readBitEnd)
    (hzero : fitZero config (duration ts s.lastTs) = false) (hone : fitOne config (duration ts s.lastTs) = false) :
    exec (.edge ts .high) s = .next { s with state := .searchSyncHigh, lastTs := ts } := by
  rw [exec_edge, edge_rbeHigh config ts s he hs, hzero, hone]
  rfl

/-- An edge in `Idle` or a reserved code holds (41_assembler.md R104). -/
theorem exec_edge_holds (ts : Timestamp) (level : Level) (s : State) (he : s.enable = true)
    (hs : isReachableState s.state = false) : exec (.edge ts level) s = .next { s with lastTs := ts } := by
  rw [exec_edge, edge_enabled config ts level s he]
  obtain ⟨state, acc, bitCount, lastTs, enable, inputs, reading⟩ := s
  cases state
  case searchSyncHigh => exact absurd hs nofun
  case searchSyncLow => exact absurd hs nofun
  case readBitStart => exact absurd hs nofun
  case readBitEnd => exact absurd hs nofun
  all_goals cases level <;> rfl

/-- The row `RSVD_67`, whose mask leaves the lowest bit of `state` open (30_encoding.md R52): a word of either of its
two codes holds a block in that code. -/
theorem exec_rsvd67_of_code (dw v : DispatchWord) (ts : Timestamp) (s : State) (hm : dw &&& 0x1E0 = v)
    (hv : v &&& 0x1C0 = 0x1C0) (he : s.enable = true) (hs : s.state = stateOf (v.extractLsb' 5 3)) :
    exec (.rsvd67 dw ts) s = .next { s with lastTs := ts } := by
  have hmask : dw &&& 0x1C0 = 0x1C0 := by
    rw [← hm, BitVec.and_assoc] at hv
    exact hv
  have henable : dispatchEnable dw = s.enable := (dispatchEnable_of_match dw 0x1C0 0x1C0 hmask rfl).trans he.symm
  have hstate : dispatchState dw = s.state := (dispatchState_of_match dw 0x1E0 v hm rfl).trans hs.symm
  exact (exec_rowInstr .rsvd67 dw ts s).trans
    (whenSelected_true _ _ _ _ ((selects_iff .rsvd67 dw s).2 ⟨hmask, henable, hstate⟩))

/-- The dispatch word of an edge selects its row in the state it was built from (41_assembler.md R85). -/
theorem selects_dispatchWord (c : Config) (ts : Timestamp) (level : Level) (s : State) :
    selects (selectRow (dispatchWord c ts level s)) (dispatchWord c ts level s) s = true := by
  have hmatch := (rowMatches_iff _ _).1 (rowMatches_selectRow (dispatchWord c ts level s))
  exact (selects_iff _ _ _).2 ⟨hmatch, dispatchEnable_pack .., dispatchState_pack ..⟩

/-- The table's duration is the model's (40_classifier.md R70). -/
theorem duration_timestamp_toNat (ts last : Timestamp) :
    (ts.toNat + 2 ^ 32 - last.toNat) % 2 ^ 32 = (duration ts last).toNat :=
  (duration_toNat ts last).symm

end Sys2Proof.Machine

namespace Sys2Proof.Proofs
open Sys2Proof.Machine

/-- Settles O17: the misfit selects `SSH_L_MISS`, and so does any word of its pattern. -/
theorem syncHighMissKeepsSearching : Obligations.SyncHighMissKeepsSearching := by
  unfold Obligations.SyncHighMissKeepsSearching
  intro s ts he hs
  constructor
  · intro hmiss
    rw [exec_edge, edge_sshLow config ts s he hs, hmiss]
    rfl
  · intro dw hm
    exact exec_rowInstr_of_match .sshLMiss dw ts s hm rfl rfl he hs

/-- Settles O20: the misfit selects `SSL_H_MISS`, and so does any word of its pattern. -/
theorem syncLowMissResetsTheSearch : Obligations.SyncLowMissResetsTheSearch := by
  unfold Obligations.SyncLowMissResetsTheSearch
  intro s ts he hs
  constructor
  · intro hmiss
    rw [exec_edge, edge_sslHigh config ts s he hs, hmiss]
    rfl
  · intro dw hm
    exact exec_rowInstr_of_match .sslHMiss dw ts s hm rfl rfl he hs

/-- Settles O24: the edge and the row are both the append of a zero, which sets no bit. -/
theorem zeroPulseAppendsZero : Obligations.ZeroPulseAppendsZero := by
  unfold Obligations.ZeroPulseAppendsZero
  intro s ts i he hs hi
  have happend : exec i s = append config false (s.setLastTs ts) := by
    obtain ⟨rfl, hfit⟩ | ⟨dw, hm, rfl⟩ := hi
    · exact exec_edge_appends_zero ts s he hs hfit
    · exact exec_rowInstr_of_match .rbeHZero dw ts s hm rfl rfl he hs
  have hrow := append_row false ts s i he happend
  rw [accWithBit_false] at hrow
  exact hrow

/-- Settles O25: the edge and the row are both the append of a one. -/
theorem onePulseAppendsOne : Obligations.OnePulseAppendsOne := by
  unfold Obligations.OnePulseAppendsOne
  intro s ts i he hs hi
  have happend : exec i s = append config true (s.setLastTs ts) := by
    obtain ⟨rfl, hfit⟩ | ⟨dw, hm, rfl⟩ := hi
    · exact exec_edge_appends_one ts s he hs hfit
    · exact exec_rowInstr_of_match .rbeHOne dw ts s hm rfl rfl he hs
  rw [← accWithBit_true]
  exact append_row true ts s i he happend

/-- Settles O26: the misfit selects `RBE_H_MISS`, and so does any word of its pattern. -/
theorem misfitInReadBitEndAbortsThePacket : Obligations.MisfitInReadBitEndAbortsThePacket := by
  unfold Obligations.MisfitInReadBitEndAbortsThePacket
  intro s ts he hs
  refine ⟨exec_edge_aborts ts s he hs, ?_⟩
  intro dw hm
  exact exec_rowInstr_of_match .rbeHMiss dw ts s hm rfl rfl he hs

/-- Settles O28: the edges state by state, the rows by the code their word carries. -/
theorem idleAndReservedStatesHold : Obligations.IdleAndReservedStatesHold := by
  unfold Obligations.IdleAndReservedStatesHold
  intro s ts he
  refine ⟨fun hs level => exec_edge_holds ts level s he hs, ?_, ?_, ?_, ?_⟩ <;> intro hs dw hm
  · exact exec_rowInstr_of_match .idleAny dw ts s hm rfl rfl he hs
  · exact exec_rowInstr_of_match .rsvd5 dw ts s hm rfl rfl he hs
  · exact exec_rsvd67_of_code dw _ ts s hm rfl he hs
  · exact exec_rsvd67_of_code dw _ ts s hm rfl he hs

/-- Settles O29: the guard writes nothing, whether it is selected or not. -/
theorem guardedEdgeIsANoOp : Obligations.GuardedEdgeIsANoOp := by
  unfold Obligations.GuardedEdgeIsANoOp
  refine ⟨fun s ts level => exec_edge_disabled ts level s, ?_⟩
  intro s dw ts
  obtain ⟨-, h⟩ | ⟨-, h⟩ := whenSelected_cases .guard dw s (rowGuard s) <;> exact h

/-- Settles O31: the dispatch word of the edge selects its row, so the row by itself is performed. -/
theorem edgePerformsTheSelectedRow : Obligations.EdgePerformsTheSelectedRow := by
  unfold Obligations.EdgePerformsTheSelectedRow
  intro s ts level
  rw [exec_rowInstr, whenSelected_true _ _ _ _ (selects_dispatchWord config ts level s)]
  rfl

/-- Settles O32: each of the three causes denies a part of being selected. -/
theorem rowNotSelectedWritesNothing : Obligations.RowNotSelectedWritesNothing := by
  unfold Obligations.RowNotSelectedWritesNothing
  intro r dw ts s hcause
  have hnot : ¬ selects r dw s = true := by
    rw [selects_iff]
    rintro ⟨hmatch, henable, hstate⟩
    obtain h | h | h := hcause
    · exact h hmatch
    · exact h henable
    · apply h
      rw [State.stateO, ← hstate, dispatchState, stateCode_stateOf]
  rw [exec_rowInstr, whenSelected_false _ _ _ _ (Bool.not_eq_true _ ▸ hnot)]

/-- Settles O34: state by state, the row that match and mask select is the table's, with the windows of R72. -/
theorem edgeFollowsTheTransitionTable : Obligations.EdgeFollowsTheTransitionTable := by
  unfold Obligations.EdgeFollowsTheTransitionTable
  intro s ts level
  rw [exec_edge]
  obtain ⟨state, acc, bitCount, lastTs, enable, inputs, reading⟩ := s
  cases enable
  case false => exact edge_disabled _ _ _ _ rfl
  case true =>
    unfold edgeByTable
    rw [if_neg (nofun : ¬ true = false)]
    simp only [duration_timestamp_toNat]
    cases state <;> cases level
    case searchSyncHigh.low =>
      refine (edge_sshLow _ _ _ rfl rfl).trans (if_congr ?_ rfl rfl)
      exact (fitSyncHigh_iff (duration ts lastTs)).trans (by omega)
    case searchSyncLow.high =>
      refine (edge_sslHigh _ _ _ rfl rfl).trans (if_congr ?_ rfl rfl)
      exact (fitSyncLow_iff (duration ts lastTs)).trans (by omega)
    case readBitEnd.high =>
      refine (edge_rbeHigh _ _ _ rfl rfl).trans (if_congr ?_ rfl (if_congr ?_ rfl rfl))
      · exact (fitZero_iff (duration ts lastTs)).trans (by omega)
      · exact (fitOne_iff (duration ts lastTs)).trans (by omega)
    all_goals exact edge_enabled _ _ _ _ rfl

end Sys2Proof.Proofs
end

section
/-! PROOFS. What an operation that answers a next state has changed, register by register, and what it has left: read
off the list of all next states (`NextEffect`; 10_state.md section 2). -/

namespace Sys2Proof.Machine

/-- Nothing but `RESET` and the edges and rows of an enabled block writes `last_ts` (10_state.md R14). -/
theorem lastTs_of_next {i : Instr} {s t : State} (h : exec i s = .next t) :
    i = .reset ∨ t.lastTs = s.lastTs ∨ (s.enable = true ∧ IsEdgeAt i t.lastTs) := by
  cases exec_next i s t h with
  | none => exact .inr (.inl rfl)
  | rearm => exact .inr (.inl rfl)
  | reset hi => exact .inl hi
  | output => exact .inr (.inl rfl)
  | held _ hedge he | aborted _ hedge he | syncHigh _ hedge he | acquired _ hedge _ he | opened _ hedge he
  | appended _ _ hedge _ he | completed _ _ hedge _ he => exact .inr (.inr ⟨he, hedge⟩)

/-- An enabled edge writes its own time (41_assembler.md R87). -/
theorem lastTs_of_edge {ts : Timestamp} {level : Level} {s t : State} (h : exec (.edge ts level) s = .next t)
    (he : s.enable = true) : t.lastTs = ts := by
  have hown : ∀ ts', IsEdgeAt (.edge ts level) ts' → ts' = ts := fun ts' hedge => (hedge.spec.1 ts level rfl).symm
  generalize hi : Instr.edge ts level = i at h hown
  cases exec_next i s t h with
  | none hoff => exact absurd_of_true_of_false he (hoff ts level hi.symm)
  | rearm hi' => cases hi.trans hi'
  | reset hi' => cases hi.trans hi'
  | output _ hout => cases hi; cases hout
  | held _ hedge | aborted _ hedge | syncHigh _ hedge | acquired _ hedge | opened _ hedge | appended _ _ hedge
  | completed _ _ hedge => exact hown _ hedge

/-- Without `REARM` and `RESET` an operation leaves the five registers of a disabled block (20_memory.md R38). -/
theorem exec_disabled {i : Instr} {s : State} (he : s.enable = false) (hi : i ≠ .rearm ∧ i ≠ .reset) :
    ∃ t, exec i s = .next t ∧ t.tuple = s.tuple := by
  obtain ⟨hrearm, hreset⟩ := hi
  obtain ⟨t, ht⟩ | ⟨-, hon, -⟩ := exec_stops i s
  · refine ⟨t, ht, ?_⟩
    cases exec_next i s t ht with
    | none => rfl
    | rearm h => exact absurd h hrearm
    | reset h => exact absurd h hreset
    | output => rfl
    | held _ _ hon | aborted _ _ hon | syncHigh _ _ hon | acquired _ _ _ hon | opened _ _ hon | appended _ _ _ _ hon
    | completed _ _ _ _ hon => exact absurd_of_true_of_false hon he
  · exact absurd_of_true_of_false hon he

/-- The same of a whole run of operations. -/
theorem runAll_disabled (is : List Instr) (s : State) (he : s.enable = false)
    (his : ∀ i ∈ is, i ≠ .rearm ∧ i ≠ .reset) : ∃ t, runAll is s = .next t ∧ t.tuple = s.tuple := by
  induction is generalizing s with
  | nil => exact ⟨s, rfl, rfl⟩
  | cons i is ih =>
    obtain ⟨hi, his⟩ := List.forall_mem_cons.1 his
    obtain ⟨t, ht, htuple⟩ := exec_disabled he hi
    have hoff : t.enable = s.enable := congrArg (fun regs => regs.2.2.2.2) htuple
    obtain ⟨u, hu, hutuple⟩ := ih t (hoff.trans he) his
    exact ⟨u, (runAll_cons_of_next is ht).trans hu, hutuple.trans htuple⟩

/-- A run of edges leaves the whole state of a disabled block (20_memory.md R38). -/
theorem runAll_edges_disabled (es : List (Timestamp × Level)) (s : State) (he : s.enable = false) :
    runAll (es.map fun e => .edge e.1 e.2) s = .next s := by
  induction es with
  | nil => rfl
  | cons e es ih => exact (runAll_cons_of_next _ (exec_edge_disabled e.1 e.2 s he)).trans ih

/-- An append is a `HIGH` edge or one of the two append rows (41_assembler.md R96, R97). -/
theorem IsAppendAt.operation {i : Instr} {ts : Timestamp} {s : State} {b : Bool} (h : IsAppendAt i ts s b) :
    (∃ ts, i = .edge ts .high) ∨ (∃ dw ts, i = .rbeHZero dw ts) ∨ ∃ dw ts, i = .rbeHOne dw ts := by
  cases b with
  | false =>
    obtain ⟨hi, -⟩ | ⟨dw, hi⟩ := h
    · exact .inl ⟨ts, hi⟩
    · exact .inr (.inl ⟨dw, ts, hi⟩)
  | true =>
    obtain ⟨hi, -⟩ | ⟨dw, hi⟩ := h
    · exact .inl ⟨ts, hi⟩
    · exact .inr (.inr ⟨dw, ts, hi⟩)

/-- An append that changes `acc` appends a one (41_assembler.md R101). -/
theorem IsAppendAt.one_of_acc_ne {i : Instr} {ts : Timestamp} {s : State} {b : Bool} (h : IsAppendAt i ts s b)
    (hacc : accWithBit b s ≠ s.acc) :
    ((∃ ts, i = .edge ts .high ∧ fitOne config (duration ts s.lastTs) = true) ∨ ∃ dw ts, i = .rbeHOne dw ts)
    ∧ accWithBit b s = s.acc ||| BitVec.ofNat 36 (2 ^ (35 - s.bitCount.toNat)) := by
  cases b with
  | false => exact absurd (accWithBit_false s) hacc
  | true =>
    refine ⟨?_, accWithBit_true s⟩
    obtain ⟨hi, hfit⟩ | ⟨dw, hi⟩ := h
    · exact .inl ⟨ts, hi, hfit⟩
    · exact .inr ⟨dw, ts, hi⟩

/-- A row of an enabled block does not read `last_ts` (41_assembler.md R85, R87). -/
theorem performRow_lastTs (c : Config) (r : Row) (ts u : Timestamp) (s : State) (hr : r ≠ .guard) :
    performRow c r ts { s with lastTs := u } = performRow c r ts s := by
  cases r
  case guard => exact absurd rfl hr
  all_goals rfl

/-- An enabled block selects another row than the guard (30_encoding.md R52). -/
theorem selectRow_ne_guard (c : Config) (ts : Timestamp) (level : Level) (s : State) (he : s.enable = true) :
    selectRow (dispatchWord c ts level s) ≠ .guard := by
  intro hguard
  have hsel := selects_dispatchWord c ts level s
  rw [hguard] at hsel
  exact absurd_of_true_of_false he (enable_of_selects .guard _ s hsel rfl)

/-- An enabled edge depends on the old `last_ts` through the row it selects, and on nothing else of it
(40_classifier.md R78). -/
theorem exec_edge_lastTs (ts u : Timestamp) (level : Level) (s : State) (he : s.enable = true)
    (hrow : selectRow (dispatchWord config ts level { s with lastTs := u })
      = selectRow (dispatchWord config ts level s)) :
    exec (.edge ts level) { s with lastTs := u } = exec (.edge ts level) s := by
  rw [exec_edge, exec_edge, edge, edge, hrow]
  exact performRow_lastTs config _ ts u s (selectRow_ne_guard config ts level s he)

end Sys2Proof.Machine

namespace Sys2Proof.Proofs
open Sys2Proof.Machine

/-- Settles O30: by induction on the list, since no operation of either kind enables the block. -/
theorem disabledBlockKeepsItsTuple : Obligations.DisabledBlockKeepsItsTuple := by
  unfold Obligations.DisabledBlockKeepsItsTuple
  intro s he
  exact ⟨fun es => runAll_edges_disabled es s he, fun is his => runAll_disabled is s he his⟩

/-- Settles O37: an edge that does not answer a next state appended at 36 bits. -/
theorem everyEdgeBelow36BitsIsDefined : Obligations.EveryEdgeBelow36BitsIsDefined := by
  unfold Obligations.EveryEdgeBelow36BitsIsDefined
  intro s ts level hk
  exact exec_next_of_armed _ s fun _ => by omega

/-- Settles O38: an operation answers a next state or is the append at 36 bits. -/
theorem overrunIsTheOnlyStop : Obligations.OverrunIsTheOnlyStop := by
  unfold Obligations.OverrunIsTheOnlyStop
  intro i s
  obtain ⟨t, ht⟩ | ⟨hfault, he, hs, hk⟩ := exec_stops i s
  · rw [ht]
    exact ⟨nofun, nofun⟩
  · rw [hfault]
    refine ⟨nofun, ?_⟩
    rintro f ⟨⟩
    exact ⟨rfl, he, hs, hk⟩

/-- Settles O39: `last_ts` is written by `RESET` and by the edges and rows of an enabled block. -/
theorem lastTimestampIsThatOfTheLastEnabledEdge : Obligations.LastTimestampIsThatOfTheLastEnabledEdge := by
  unfold Obligations.LastTimestampIsThatOfTheLastEnabledEdge
  intro i s t h
  refine ⟨?_, ?_, ?_⟩
  · rintro ts level rfl he
    exact lastTs_of_edge h he
  · intro hoff hi
    obtain hreset | hkept | ⟨hon, -⟩ := lastTs_of_next h
    · exact absurd hreset hi
    · exact hkept
    · exact absurd_of_true_of_false hon hoff
  · intro hi
    obtain rfl | hkept | ⟨-, hedge⟩ := lastTs_of_next h
    · obtain h | h | h := hi <;> cases h
    · exact hkept
    · obtain ⟨-, hout, hnop, hrearm, -⟩ := hedge.spec
      obtain h | h | h := hi
      · exact absurd_of_true_of_false h hout
      · exact absurd h hnop
      · exact absurd h hrearm

/-- Settles O40: of all next states only the completed one is disabled after enabled, and only `REARM` and `RESET`
enable. -/
theorem enableFallsOnlyOnCompletion : Obligations.EnableFallsOnlyOnCompletion := by
  unfold Obligations.EnableFallsOnlyOnCompletion
  intro i s t h
  cases exec_next i s t h with
  | none | output => exact ⟨absurd_of_true_of_false, fun hoff hon => absurd_of_true_of_false hon hoff⟩
  | rearm hi => exact ⟨nofun, fun _ _ => .inl hi⟩
  | reset hi => exact ⟨nofun, fun _ _ => .inr hi⟩
  | held _ _ he | aborted _ _ he | syncHigh _ _ he | acquired _ _ _ he | opened _ _ he | appended _ _ _ _ he =>
    exact ⟨absurd_of_true_of_false, absurd_of_true_of_false he⟩
  | completed ts b _ happend he hs hk =>
    have hfull := bitCount_add_one_of_last s.bitCount hk
    exact ⟨fun _ _ => ⟨hs, BitVec.eq_of_toNat_eq hk, hfull, rfl, happend.operation⟩, nofun⟩

/-- Settles O41: of all next states only these three change `acc`. -/
theorem accumulatorIsWrittenInThreePlaces : Obligations.AccumulatorIsWrittenInThreePlaces := by
  unfold Obligations.AccumulatorIsWrittenInThreePlaces
  intro i s t h hacc
  cases exec_next i s t h with
  | none | rearm | output | held | aborted | syncHigh | opened => exact absurd rfl hacc
  | reset hi => exact .inl ⟨hi, rfl⟩
  | acquired ts _ hacquire he hs =>
    obtain ⟨hi, hfit⟩ | ⟨dw, hi⟩ := hacquire
    · exact .inr (.inl ⟨.inl ⟨ts, hi, hfit⟩, he, hs, rfl, rfl, rfl⟩)
    · exact .inr (.inl ⟨.inr ⟨dw, ts, hi⟩, he, hs, rfl, rfl, rfl⟩)
  | appended ts b _ happend he hs hk =>
    obtain ⟨hi, hone⟩ := happend.one_of_acc_ne hacc
    exact .inr (.inr ⟨hi, he, hs, hk.le, hone, rfl⟩)
  | completed ts b _ happend he hs hk =>
    obtain ⟨hi, hone⟩ := happend.one_of_acc_ne hacc
    exact .inr (.inr ⟨hi, he, hs, hk.le, hone, rfl⟩)

/-- Settles O42, next state by next state. -/
theorem idleIsNeverEntered : Obligations.IdleIsNeverEntered := by
  unfold Obligations.IdleIsNeverEntered
  intro i s t h
  cases exec_next i s t h with
  | none | rearm | output | held => exact .inl rfl
  | reset | aborted | syncHigh | acquired | opened | appended | completed => exact .inr rfl

/-- Settles O43: the row an enabled edge selects is a function of its state, its level and the fit bits they consult. -/
theorem eachStateConsultsItsOwnFitsOnly : Obligations.EachStateConsultsItsOwnFitsOnly := by
  unfold Obligations.EachStateConsultsItsOwnFitsOnly
  intro s ts u level he
  refine ⟨?_, ?_, ?_, ?_⟩
  · rintro hs rfl hfit
    apply exec_edge_lastTs _ _ _ _ he
    simp only [dispatchWord, he, hs, selectRow_enabled, hfit]
  · rintro hs rfl hfit
    apply exec_edge_lastTs _ _ _ _ he
    simp only [dispatchWord, he, hs, selectRow_enabled, hfit]
  · rintro hs rfl hzero hone
    apply exec_edge_lastTs _ _ _ _ he
    rw [selectRow_rbeHigh config ts { s with lastTs := u } he hs, selectRow_rbeHigh config ts s he hs, ← hzero]
    cases hfit : fitZero config (duration ts s.lastTs)
    · rw [hone hfit]
    · rfl
  · intro hssh hssl hrbe
    apply exec_edge_lastTs _ _ _ _ he
    simp only [dispatchWord, he, selectRow_enabled]
    cases hs : s.state <;> cases level
    case searchSyncHigh.low => exact absurd ⟨hs, rfl⟩ hssh
    case searchSyncLow.high => exact absurd ⟨hs, rfl⟩ hssl
    case readBitEnd.high => exact absurd ⟨hs, rfl⟩ hrbe
    all_goals rfl

/-- Settles O52, next state by next state. -/
theorem frameOfTheTwoComponents : Obligations.FrameOfTheTwoComponents := by
  unfold Obligations.FrameOfTheTwoComponents
  intro i s t h
  cases exec_next i s t h with
  | none => exact ⟨rfl, fun _ => rfl, fun _ => rfl⟩
  | output r hout => exact ⟨rfl, absurd_of_true_of_false hout, fun _ => rfl⟩
  | rearm hi | reset hi => exact ⟨rfl, fun _ => rfl, fun hout => by rw [hi] at hout; cases hout⟩
  | held _ hedge | aborted _ hedge | syncHigh _ hedge | acquired _ hedge | opened _ hedge | appended _ _ hedge
  | completed _ _ hedge =>
    obtain ⟨-, hnot, -⟩ := hedge.spec
    exact ⟨rfl, fun _ => rfl, fun hout => absurd_of_true_of_false hout hnot⟩

end Sys2Proof.Proofs
end

section
/-! PROOFS. The control operations and their hazards (42_control_ops.md, 70_reset_and_hazards.md): what `REARM` and
`RESET` write, operations at the same instant (R113), the first edge after a `RESET` (R156), and a completed block
re-armed without a reset (R160). -/

namespace Sys2Proof.Machine

@[simp] theorem exec_rearm (s : State) : exec .rearm s = .next { s with enable := true } := rfl

@[simp] theorem exec_reset (s : State) : exec .reset s
    = .next { s with state := .searchSyncHigh, acc := 0, bitCount := 0, lastTs := 0, enable := true } := rfl

/-- An enabled `SearchSyncHigh` goes on after every edge, enabled, from the time of the edge. -/
theorem exec_edge_searching (ts : Timestamp) (level : Level) (s : State) (he : s.enable = true)
    (hs : s.state = .searchSyncHigh) :
    ∃ t, exec (.edge ts level) s = .next t ∧ t.enable = true ∧ t.lastTs = ts := by
  obtain ⟨t, ht⟩ | ⟨-, -, hend, -⟩ := exec_stops (.edge ts level) s
  · refine ⟨t, ht, ?_, lastTs_of_edge ht he⟩
    by_contra hoff
    obtain ⟨hend, -⟩ := (Proofs.enableFallsOnlyOnCompletion _ s t ht).1 he (Bool.eq_false_of_not_eq_true hoff)
    cases hs.symm.trans hend
  · cases hs.symm.trans hend

end Sys2Proof.Machine

namespace Sys2Proof.Proofs
open Sys2Proof.Machine

/-- Settles O9: a set `enable` set once more is the same state. -/
theorem rearmSetsEnableOnly : Obligations.RearmSetsEnableOnly := by
  unfold Obligations.RearmSetsEnableOnly
  intro s
  refine ⟨exec_rearm s, ?_⟩
  intro he
  rw [exec_rearm, ← he]

/-- Settles O10: the five registers written, and written once more with the same values. -/
theorem resetWritesAllFiveRegisters : Obligations.ResetWritesAllFiveRegisters := by
  unfold Obligations.ResetWritesAllFiveRegisters
  intro s
  exact ⟨_, exec_reset s, rfl, exec_reset _⟩

/-- Settles O45: the guarded edge leaves the block to the re-arm, and the edge after a `RESET` finds it enabled. -/
theorem sameInstantOrder : Obligations.SameInstantOrder := by
  unfold Obligations.SameInstantOrder
  intro s ts level
  refine ⟨rfl, ?_⟩
  intro he
  constructor
  · have hrun : sameInstant false (some (ts, level)) true = [.edge ts level, .rearm] := rfl
    rw [hrun, runAll_cons_of_next _ (exec_edge_disabled ts level s he), runAll_singleton, exec_rearm]
  · have hrun : sameInstant true (some (ts, level)) false = [.reset, .edge ts level] := rfl
    rw [hrun, runAll_cons_of_next _ (exec_reset s), runAll_singleton]
    exact exec_edge_searching ts level _ rfl rfl

/-- Settles O53: after `RESET` the duration of an edge at `ts` is `ts`. -/
theorem firstLowAfterResetIsMeasuredFromZero : Obligations.FirstLowAfterResetIsMeasuredFromZero := by
  unfold Obligations.FirstLowAfterResetIsMeasuredFromZero
  intro s ts
  rw [runAll_cons_of_next _ (exec_reset s), runAll_singleton]
  have hwindow : fitSyncHigh config (duration ts 0) = true ↔ 201 ≤ ts.toNat ∧ ts.toNat ≤ 799 := by
    rw [show duration ts 0 = ts from BitVec.sub_zero ts]
    exact fitSyncHigh_iff ts
  cases hfit : fitSyncHigh config (duration ts 0) <;> rw [hfit] at hwindow
  · refine ⟨_, (syncHighMissKeepsSearching _ ts rfl rfl).1 hfit, rfl, ?_, ?_⟩
    · exact ⟨nofun, fun hin => absurd (hwindow.2 hin) nofun⟩
    · exact ⟨fun _ => by have := mt hwindow.2 nofun; omega, fun _ => rfl⟩
  · have hin := hwindow.1 rfl
    refine ⟨_, (syncHighFitEntersSearchSyncLow _ ts rfl rfl).1 hfit, rfl, ?_, ?_⟩
    · exact ⟨fun _ => hin, fun _ => rfl⟩
    · exact ⟨nofun, fun hout => by omega⟩

/-- Settles O44: the re-armed block takes a `LOW` untested into `ReadBitEnd` with its 36 bits, where a `HIGH` that fits
a bit appends one too many. -/
theorem rearmWithoutResetMayOverrun : Obligations.RearmWithoutResetMayOverrun := by
  unfold Obligations.RearmWithoutResetMayOverrun
  intro s h l e he hs hk
  have hlow : ∀ u : State, u.enable = true → u.state = .readBitStart →
      exec (.edge l .low) u = .next { u with state := .readBitEnd, lastTs := l } :=
    fun u hu hus => (lowInReadBitStartOpensTheBit u l hu hus).1
  have hopened : ∀ is, runAll (.rearm :: .edge l .low :: is) s
      = runAll is { s with enable := true, state := .readBitEnd, lastTs := l } := by
    intro is
    rw [runAll_cons_of_next _ (exec_rearm s), runAll_cons_of_next _ (hlow { s with enable := true } rfl hs)]
  refine ⟨?_, ?_, ?_⟩
  · have hhigh : exec (.edge h .high) { s with enable := true } = .next { s with enable := true, lastTs := h } :=
      (highInReadBitStartIsIgnored { s with enable := true } h rfl hs).1
    rw [runAll_cons_of_next _ (exec_rearm s), runAll_cons_of_next _ hhigh, runAll_singleton]
    exact hlow { s with enable := true, lastTs := h } rfl hs
  · intro hzero hone
    rw [hopened, runAll_singleton]
    exact exec_edge_aborts e { s with enable := true, state := .readBitEnd, lastTs := l } rfl rfl hzero hone
  · intro hfit
    rw [hopened, runAll_singleton]
    have hfull : 36 ≤ s.bitCount.toNat := by rw [hk]; decide
    exact exec_edge_overruns e { s with enable := true, state := .readBitEnd, lastTs := l } rfl rfl hfull hfit

end Sys2Proof.Proofs
end

section
/-! PROOFS. The delivery of a packet (41_assembler.md R108): runs of an enabled block (`Delivers`), the state in the
middle of a packet (`State.midPacket`), one bit, all the bits, and the whole canonical sequence. -/

namespace Sys2Proof.Machine

/-- The run of `is` from `s` ends in `t`, and each operation of it found the block enabled. -/
inductive Delivers : List Instr → State → State → Prop where
  | nil (s : State) : Delivers [] s s
  | cons {i : Instr} {is : List Instr} {s t u : State} : s.enable = true → exec i s = .next t → Delivers is t u →
      Delivers (i :: is) s u

theorem Delivers.runAll_eq {is : List Instr} {s t : State} (h : Delivers is s t) : runAll is s = .next t := by
  induction h with
  | nil s => rfl
  | cons _ hi _ ih => exact (runAll_cons_of_next _ hi).trans ih

/-- Before its last operation a delivering run is in an enabled block. -/
theorem Delivers.enabled_before_end {is : List Instr} {s t : State} (h : Delivers is s t) :
    ∀ n < is.length, ∃ u, runAll (is.take n) s = .next u ∧ u.enable = true := by
  induction h with
  | nil s => nofun
  | @cons i is s t u he hi _ ih =>
    intro n hn
    cases n with
    | zero => exact ⟨s, rfl, he⟩
    | succ n =>
      obtain ⟨v, hv, hve⟩ := ih n (Nat.lt_of_succ_lt_succ hn)
      exact ⟨v, (runAll_cons_of_next _ hi).trans hv, hve⟩

/-- The first `k` bits of a packet, bit 35 first, each at its place. -/
def firstBits (p : Acc) (k : Nat) : Acc := (p >>> (36 - k)) <<< (36 - k)

theorem firstBits_getLsbD (p : Acc) (k j : Nat) :
    (firstBits p k).getLsbD j = (decide (36 - k ≤ j) && p.getLsbD j) := by
  rw [firstBits, BitVec.getLsbD_shiftLeft, BitVec.getLsbD_ushiftRight]
  by_cases hj : 36 - k ≤ j
  · have hplace : 36 - k + (j - (36 - k)) = j := by omega
    by_cases hout : j < 36
    · simp [hj, hout, hplace]
    · simp [hout, BitVec.getLsbD_of_ge p j (by omega)]
  · have hlow : j < 36 - k := by omega
    simp [hj, hlow]

theorem firstBits_zero (p : Acc) : firstBits p 0 = 0 := by
  apply BitVec.eq_of_getLsbD_eq
  intro j hj
  have hnone : ¬ 36 ≤ j := by omega
  simp [firstBits_getLsbD, hnone]

theorem firstBits_all (p : Acc) : firstBits p 36 = p := by
  apply BitVec.eq_of_getLsbD_eq
  intro j _
  simp [firstBits_getLsbD]

/-- `s` after the first `k` bits of the packet `p`, the last of them at the time `t`. -/
def State.midPacket (s : State) (p : Acc) (k : Nat) (t : Timestamp) : State :=
  { s with state := .readBitStart, acc := firstBits p k, bitCount := BitVec.ofNat 6 k, lastTs := t,
           enable := decide (k ≠ 36) }

/-- The low pulse of a bit lies in the bit's window (40_classifier.md R72). -/
def fitsBit (b : Bool) (d : Timestamp) : Prop :=
  if b then 1701 ≤ d.toNat ∧ d.toNat ≤ 2299 else 701 ≤ d.toNat ∧ d.toNat ≤ 1299

/-- The pulses of the bits of a packet: for each the high pulse and the low pulse. -/
def bitsPulses (bits : List (Timestamp × Timestamp)) : List Pulse :=
  bits.flatMap fun b => [(b.1, .low), (b.2, .high)]

/-- The time of an edge is measured from the edge before (40_classifier.md R70). -/
@[simp] theorem duration_add (t d : Timestamp) : duration (t + d) t = d := by
  rw [duration, BitVec.add_comm, BitVec.add_sub_cancel]

/-- A `HIGH` after a pulse in a bit's window appends the bit (41_assembler.md R96, R97). -/
theorem exec_edge_appends_bit (b : Bool) (ts : Timestamp) (s : State) (he : s.enable = true)
    (hs : s.state = .readBitEnd) (hfit : fitsBit b (duration ts s.lastTs)) : exec (.edge ts .high) s = append config b (s.setLastTs ts) := by
  cases b with
  | false => exact exec_edge_appends_zero ts s he hs ((fitZero_iff _).2 hfit)
  | true => exact exec_edge_appends_one ts s he hs ((fitOne_iff _).2 hfit)

/-- An append of the packet's next bit gives its first `k + 1` bits (41_assembler.md R101). -/
theorem accWithBit_firstBits (p : Acc) (k : Nat) (s : State) (hk : k < 36) (hacc : s.acc = firstBits p k)
    (hcount : s.bitCount.toNat = k) : accWithBit (p.getLsbD (35 - k)) s = firstBits p (k + 1) := by
  apply BitVec.eq_of_getLsbD_eq
  intro j _
  rw [accWithBit_getLsbD, hacc, hcount, firstBits_getLsbD, firstBits_getLsbD]
  obtain hlt | rfl | hgt := Nat.lt_trichotomy j (35 - k)
  · have h1 : ¬ 36 - k ≤ j := by omega
    have h2 : ¬ 36 - (k + 1) ≤ j := by omega
    rw [decide_eq_false h1, decide_eq_false h2, decide_eq_false hlt.ne]
    simp
  · have h1 : ¬ 36 - k ≤ 35 - k := by omega
    have h2 : 36 - (k + 1) ≤ 35 - k := by omega
    rw [decide_eq_false h1, decide_eq_true h2, decide_eq_true rfl]
    simp
  · have h1 : 36 - k ≤ j := by omega
    have h2 : 36 - (k + 1) ≤ j := by omega
    rw [decide_eq_true h1, decide_eq_true h2, decide_eq_false hgt.ne']
    simp

/-- The `HIGH` that ends a bit of a packet. -/
theorem exec_edge_midPacket (s : State) (p : Acc) (k : Nat) (t d : Timestamp) (hk : k < 36)
    (hfit : fitsBit (p.getLsbD (35 - k)) d) :
    exec (.edge (t + d) .high) ((s.midPacket p k t).setState .readBitEnd)
      = .next (s.midPacket p (k + 1) (t + d)) := by
  have hon : (s.midPacket p k t).enable = true := decide_eq_true hk.ne
  have hcount : (s.midPacket p k t).bitCount.toNat = k := Nat.mod_eq_of_lt (show k < 2 ^ 6 by omega)
  have hnext : (s.midPacket p k t).bitCount + 1 = BitVec.ofNat 6 (k + 1) := (BitVec.ofNat_add k 1).symm
  have henable : decide (k ≠ 35) = decide (k + 1 ≠ 36) := decide_eq_decide.2 (by omega)
  rw [← duration_add t d] at hfit
  have happend := exec_edge_appends_bit _ (t + d) ((s.midPacket p k t).setState .readBitEnd) hon rfl hfit
  have hrow := (append_row _ _ ((s.midPacket p k t).setState .readBitEnd) _ hon happend).1 (hcount.trans_lt hk)
  have hacc : accWithBit (p.getLsbD (35 - k)) ((s.midPacket p k t).setState .readBitEnd) = firstBits p (k + 1) :=
    accWithBit_firstBits p k _ hk rfl hcount
  rw [hrow, hacc, State.setState_bitCount, hcount, hnext, henable]
  rfl

/-- The bits of a packet from the `k`-th on, delivered. -/
theorem delivers_bits (s : State) (p : Acc) (bits : List (Timestamp × Timestamp)) (k : Nat) (t : Timestamp)
    (hk : k + bits.length = 36)
    (hfit : ∀ (j : Nat) (h : j < bits.length), fitsBit (p.getLsbD (35 - (k + j))) bits[j].2) :
    Delivers (pulseEdges t (bitsPulses bits)) (s.midPacket p k t)
      (s.midPacket p 36 (pulsesEnd t (bitsPulses bits))) := by
  induction bits generalizing k t with
  | nil =>
    obtain rfl : k = 36 := hk
    exact .nil _
  | cons b bits ih =>
    rw [List.length_cons] at hk
    have hon : (s.midPacket p k t).enable = true := decide_eq_true (show k ≠ 36 by omega)
    have hlow := (Proofs.lowInReadBitStartOpensTheBit (s.midPacket p k t) (t + b.1) hon rfl).1
    have hhigh := exec_edge_midPacket s p k (t + b.1) b.2 (by omega) (hfit 0 (Nat.succ_pos _))
    refine .cons hon hlow (.cons hon hhigh (ih (k + 1) (t + b.1 + b.2) (by omega) ?_))
    intro j hj
    have hnext := hfit (j + 1) (Nat.succ_lt_succ hj)
    rw [show k + 1 + j = k + (j + 1) by omega]
    exact hnext

/-- The canonical sequence of R108 in its general form, delivered. -/
theorem delivers_packet (s : State) (t dh dl : Timestamp) (p : Acc) (bits : List (Timestamp × Timestamp))
    (hs : s.state = .searchSyncHigh) (he : s.enable = true) (hdh : 201 ≤ dh.toNat ∧ dh.toNat ≤ 799)
    (hdl : 3701 ≤ dl.toNat ∧ dl.toNat ≤ 4299) (hlen : bits.length = 36)
    (hfit : ∀ (k : Nat) (h : k < bits.length), fitsBit (p.getLsbD (35 - k)) bits[k].2) :
    Delivers (.edge t .high :: pulseEdges t ((dh, .low) :: (dl, .high) :: bitsPulses bits)) s
      (s.midPacket p 36 (pulsesEnd t ((dh, .low) :: (dl, .high) :: bitsPulses bits))) := by
  have hbits := delivers_bits s p bits 0 (t + dh + dl) (by omega) fun j hj => by simpa using hfit j hj
  have hstart : s.midPacket p 0 (t + dh + dl)
      = { s with acc := 0, bitCount := 0, state := .readBitStart, lastTs := t + dh + dl } := by
    rw [State.midPacket, firstBits_zero, he]
    rfl
  rw [hstart] at hbits
  have hhigh : fitSyncHigh config (duration (t + dh) t) = true := by rwa [duration_add, fitSyncHigh_iff]
  have hlow : fitSyncLow config (duration (t + dh + dl) (t + dh)) = true := by rwa [duration_add, fitSyncLow_iff]
  refine .cons he (Proofs.highInSearchSyncHighIsIgnored s t he hs).1 ?_
  refine .cons he ((Proofs.syncHighFitEntersSearchSyncLow { s with lastTs := t } (t + dh) he hs).1 hhigh) ?_
  exact .cons he ((Proofs.syncLowFitClearsAndStartsReading.1
    { s with state := .searchSyncLow, lastTs := t + dh } (t + dh + dl) he rfl).1 hlow) hbits

theorem pulseEdges_length (t : Timestamp) (pulses : List Pulse) : (pulseEdges t pulses).length = pulses.length := by
  induction pulses generalizing t with
  | nil => rfl
  | cons pulse pulses ih => exact congrArg (· + 1) (ih (t + pulse.1))

theorem bitsPulses_length (bits : List (Timestamp × Timestamp)) : (bitsPulses bits).length = 2 * bits.length := by
  induction bits with
  | nil => rfl
  | cons b bits ih =>
    rw [List.length_cons, Nat.mul_succ, ← ih]
    rfl

/-- A sync pair and 36 bits are 75 edges, with the `HIGH` before them. -/
theorem packetEdges_length (t dh dl : Timestamp) (bits : List (Timestamp × Timestamp)) (h : bits.length = 36) :
    (Instr.edge t .high :: pulseEdges t ((dh, .low) :: (dl, .high) :: bitsPulses bits)).length = 75 := by
  simp only [List.length_cons, pulseEdges_length, bitsPulses_length, h]

/-- The bits of `PACKET p` with their nominal durations (30_encoding.md R60). -/
def nominalBits (p : Acc) : List (Timestamp × Timestamp) :=
  (List.range 36).map fun k => (500, if p.getLsbD (35 - k) then 2000 else 1000)

theorem nominalBits_length (p : Acc) : (nominalBits p).length = 36 := by
  simp [nominalBits]

theorem bitsPulses_nominalBits (p : Acc) : bitsPulses (nominalBits p) = packetPulses p := by
  rw [bitsPulses, nominalBits, List.flatMap_map]
  rfl

/-- The nominal durations lie in their windows. -/
theorem fitsBit_nominalBits (p : Acc) (k : Nat) (h : k < (nominalBits p).length) :
    fitsBit (p.getLsbD (35 - k)) (nominalBits p)[k].2 := by
  simp only [nominalBits, List.getElem_map, List.getElem_range]
  cases p.getLsbD (35 - k) <;> unfold fitsBit <;> decide

end Sys2Proof.Machine

namespace Sys2Proof.Proofs
open Sys2Proof.Machine

/-- Settles O35: the run delivers the packet, each of its 75 edges found the block enabled, and all 36 first bits are
the packet. -/
theorem canonicalSequenceDeliversThePacket : Obligations.CanonicalSequenceDeliversThePacket := by
  unfold Obligations.CanonicalSequenceDeliversThePacket
  intro s t dh dl p bits hs he hdh hdh' hdl hdl' hlen hfit pulses edges
  have hrun : Delivers edges s (s.midPacket p 36 (pulsesEnd t pulses)) :=
    delivers_packet s t dh dl p bits hs he ⟨hdh, hdh'⟩ ⟨hdl, hdl'⟩ hlen hfit
  constructor
  · rw [hrun.runAll_eq, State.midPacket, firstBits_all]
    rfl
  · intro n hn
    have hlength : edges.length = 75 := packetEdges_length t dh dl bits hlen
    exact hrun.enabled_before_end n (hlength ▸ hn)

/-- Settles O36: the trace is the canonical sequence with the nominal durations. -/
theorem nominalSequenceDeliversThePacket : Obligations.NominalSequenceDeliversThePacket := by
  unfold Obligations.NominalSequenceDeliversThePacket
  intro s t p hs he
  have hpulses : syncPulses ++ packetPulses p = (500, .low) :: (4000, .high) :: bitsPulses (nominalBits p) := by
    rw [bitsPulses_nominalBits]
    rfl
  rw [canonicalSequence, hpulses]
  constructor
  · exact packetEdges_length t 500 4000 (nominalBits p) (nominalBits_length p)
  · rw [(delivers_packet s t 500 4000 p (nominalBits p) hs he (by decide) (by decide) (nominalBits_length p)
      (fitsBit_nominalBits p)).runAll_eq, State.midPacket, firstBits_all]
    rfl

end Sys2Proof.Proofs
end

section
/-! PROOFS. The field decoder (43_field_decoder.md): a field as arithmetic on its word, the fields of a packed word
(R130), the bits a reading depends on (R128), and the temperature (R125). -/

namespace Sys2Proof.Machine

/-- A field is a quotient of the packet word, reduced to the field's width (30_encoding.md R56 c). -/
theorem field_toNat {n : Nat} (c : Config) (f : PacketField) (p : BitVec n) :
    (field c f p).toNat = p.toNat / 2 ^ fieldShift c f % 2 ^ fieldWidth f := by
  rw [field, BitVec.extractLsb'_toNat, Nat.shiftRight_eq_div_pow]

/-- The same as a word of the field's width. -/
theorem field_eq_ofNat {n : Nat} (c : Config) (f : PacketField) (p : BitVec n) :
    field c f p = BitVec.ofNat (fieldWidth f) (p.toNat / 2 ^ fieldShift c f) :=
  BitVec.eq_of_toNat_eq ((field_toNat c f p).trans (BitVec.toNat_ofNat ..).symm)

/-- The boolean of a one-bit field is its bit (43_field_decoder.md R122). -/
theorem flagOf_iff (b : BitVec 1) : flagOf b = true ↔ b.toNat = 1 := by
  revert b
  decide

/-- The battery's sense as arithmetic on the packet word (43_field_decoder.md R122, decision D28). -/
theorem flagOf_battery_iff {n : Nat} (c : Config) (p : BitVec n) :
    flagOf (field c .battery p) = true ↔ p.toNat / 2 ^ 27 % 2 = 1 := by
  rw [flagOf_iff, field_toNat]
  rfl

/-- A field depends on its own bits alone (43_field_decoder.md R128). -/
theorem field_congr {n m : Nat} (c : Config) (f : PacketField) (p : BitVec n) (q : BitVec m)
    (h : ∀ i < fieldWidth f, p.getLsbD (fieldShift c f + i) = q.getLsbD (fieldShift c f + i)) :
    field c f p = field c f q := by
  apply BitVec.eq_of_getLsbD_eq
  intro i hi
  rw [field, field, BitVec.getLsbD_extractLsb', BitVec.getLsbD_extractLsb', h i hi]

/-- A field is the value whose bits stand at its offset. -/
theorem field_eq_of_bits {n : Nat} (c : Config) (f : PacketField) (p : BitVec n) (x : BitVec (fieldWidth f))
    (h : ∀ i < fieldWidth f, p.getLsbD (fieldShift c f + i) = x.getLsbD i) : field c f p = x := by
  apply BitVec.eq_of_getLsbD_eq
  intro i hi
  rw [field, BitVec.getLsbD_extractLsb', h i hi, decide_eq_true hi, Bool.true_and]

/-- The temperature at the default parameters (43_field_decoder.md R125, decision D18). -/
theorem temperature_config (r : Reading) : r.temperature config = (r.tempRaw.toNat : Rat) / 10 := rfl

/-- A bit of a value put into a packet word at an offset. -/
theorem placed_getLsbD {w : Nat} (x : BitVec w) (shift j : Nat) (hj : j < 36) :
    (x.setWidth 36 <<< shift).getLsbD j = (decide (shift ≤ j) && x.getLsbD (j - shift)) := by
  have hin : j - shift < 36 := by omega
  rw [BitVec.getLsbD_shiftLeft, BitVec.getLsbD_setWidth, decide_eq_true hj, decide_eq_true hin, Bool.true_and,
    Bool.true_and, ← decide_not]
  simp only [not_lt]

/-- The value of one bit, `true` exactly when it is 1. -/
theorem flagOf_eq_decide (b : BitVec 1) : flagOf b = decide (b = 1) := rfl

section
variable (id : BitVec 8) (battery u : BitVec 1) (channel : BitVec 2) (tempRaw : BitVec 12) (pad : BitVec 4)
  (humidity : BitVec 8)

/-- The bits of a packed word, field by field (43_field_decoder.md R130). -/
theorem pack_getLsbD (j : Nat) (hj : j < 36) :
    (pack id battery u channel tempRaw pad humidity).getLsbD j
      = if 28 ≤ j then id.getLsbD (j - 28)
        else if 27 ≤ j then battery.getLsbD (j - 27)
        else if 26 ≤ j then u.getLsbD (j - 26)
        else if 24 ≤ j then channel.getLsbD (j - 24)
        else if 12 ≤ j then tempRaw.getLsbD (j - 12)
        else if 8 ≤ j then pad.getLsbD (j - 8)
        else humidity.getLsbD j := by
  have hhumidity : (humidity.setWidth 36).getLsbD j = humidity.getLsbD j := by
    rw [BitVec.getLsbD_setWidth, decide_eq_true hj, Bool.true_and]
  simp only [pack, BitVec.getLsbD_or, placed_getLsbD _ _ _ hj, hhumidity]
  split_ifs <;> simp (disch := omega) [BitVec.getLsbD_of_ge, *]

end

/-- The seven fields of a word, one after another, are its reading but for the timestamp (43_field_decoder.md R131). -/
theorem runAll_fields (s : State) (p : DecPacket) :
    runAll [.fieldHumidity p, .fieldPad p, .fieldTemp p, .fieldChannel p, .fieldUnused26 p, .fieldBattery p,
        .fieldId p] s
      = .next { s with reading := readingOf config p s.reading.timestamp } := by
  simp only [runAll, exec, execFieldHumidity, execFieldPad, execFieldTemp, execFieldChannel, execFieldUnused26,
    execFieldBattery, execFieldId, State.setReading, readingOf]

end Sys2Proof.Machine

namespace Sys2Proof.Proofs
open Sys2Proof.Machine

/-- Settles O46: each field as a quotient and a remainder of the word. -/
theorem decodeExtractsTheFixedFields : Obligations.DecodeExtractsTheFixedFields := by
  unfold Obligations.DecodeExtractsTheFixedFields
  constructor
  · intro s p now
    refine ⟨readingOf config p now, rfl, rfl, field_toNat config .id p, flagOf_battery_iff config p,
      field_toNat config .channel p, field_toNat config .tempRaw p, ?_, ?_⟩
    · rw [temperature_config, div_eq_mul_one_div]
    · exact (field_toNat config .humidity p).trans (congrArg (· % 2 ^ 8) (Nat.div_one _))
  · intro c n p now
    exact field_toNat c .channel p

/-- Settles O47: each field as a quotient of the word. -/
theorem eachFieldPutsOutItsOwnValue : Obligations.EachFieldPutsOutItsOwnValue := by
  unfold Obligations.EachFieldPutsOutItsOwnValue
  intro s p
  have hbattery : flagOf (field config .battery p) = decide (p.toNat / 2 ^ 27 % 2 = 1) :=
    Bool.eq_iff_iff.2 ((flagOf_battery_iff config p).trans decide_eq_true_iff.symm)
  have hhumidity : field config .humidity p = BitVec.ofNat 8 p.toNat :=
    (field_eq_ofNat config .humidity p).trans (congrArg _ (Nat.div_one _))
  have hid : field config .id p = BitVec.ofNat 8 (p.toNat / 2 ^ 28) := field_eq_ofNat config .id p
  have hchannel : field config .channel p = BitVec.ofNat 2 (p.toNat / 2 ^ 24) := field_eq_ofNat config .channel p
  have htemp : field config .tempRaw p = BitVec.ofNat 12 (p.toNat / 2 ^ 12) := field_eq_ofNat config .tempRaw p
  rw [← hid, ← hbattery, ← hchannel, ← htemp, ← hhumidity]
  exact ⟨rfl, rfl, rfl, rfl, rfl, rfl, rfl⟩

/-- Settles O48: the fields one after another write the parts of one reading. -/
theorem decodeIsItsFieldsTogether : Obligations.DecodeIsItsFieldsTogether := by
  unfold Obligations.DecodeIsItsFieldsTogether
  intro s p now
  exact ⟨_, runAll_fields s p, rfl⟩

/-- Settles O49: each field of the packed word has the bits of its value. -/
theorem packedFieldsDecodeBack : Obligations.PackedFieldsDecodeBack := by
  unfold Obligations.PackedFieldsDecodeBack
  intro id battery u channel tempRaw pad humidity now
  have hbits := pack_getLsbD id battery u channel tempRaw pad humidity
  have hid : field config .id (pack id battery u channel tempRaw pad humidity) = id :=
    field_eq_of_bits config .id _ id fun i (hi : i < 8) => (hbits (28 + i) (by omega)).trans (by simp)
  have hbattery : field config .battery (pack id battery u channel tempRaw pad humidity) = battery :=
    field_eq_of_bits config .battery _ battery fun i (hi : i < 1) => (hbits (27 + i) (by omega)).trans (by
      simp (disch := omega) [if_neg])
  have hchannel : field config .channel (pack id battery u channel tempRaw pad humidity) = channel :=
    field_eq_of_bits config .channel _ channel fun i (hi : i < 2) => (hbits (24 + i) (by omega)).trans (by
      simp (disch := omega) [if_neg])
  have htemp : field config .tempRaw (pack id battery u channel tempRaw pad humidity) = tempRaw :=
    field_eq_of_bits config .tempRaw _ tempRaw fun i (hi : i < 12) => (hbits (12 + i) (by omega)).trans (by
      simp (disch := omega) [if_neg])
  have hhumidity : field config .humidity (pack id battery u channel tempRaw pad humidity) = humidity :=
    field_eq_of_bits config .humidity _ humidity fun i (hi : i < 8) => (hbits (0 + i) (by omega)).trans (by
      simp (disch := omega) [if_neg])
  simp only [readingOf, hid, hbattery, hchannel, htemp, hhumidity, flagOf_eq_decide]

/-- Settles O50: bit 26 and bits 11 to 8 belong to no field that is put out. -/
theorem unusedBitsAreIgnored : Obligations.UnusedBitsAreIgnored := by
  unfold Obligations.UnusedBitsAreIgnored
  intro n m p q now h
  have hid : field config .id p = field config .id q :=
    field_congr config .id p q fun i (hi : i < 8) => h (28 + i) (by omega) (by omega) (by omega)
  have hbattery : field config .battery p = field config .battery q :=
    field_congr config .battery p q fun i (hi : i < 1) => h (27 + i) (by omega) (by omega) (by omega)
  have hchannel : field config .channel p = field config .channel q :=
    field_congr config .channel p q fun i (hi : i < 2) => h (24 + i) (by omega) (by omega) (by omega)
  have htemp : field config .tempRaw p = field config .tempRaw q :=
    field_congr config .tempRaw p q fun i (hi : i < 12) => h (12 + i) (by omega) (by omega) (by omega)
  have hhumidity : field config .humidity p = field config .humidity q :=
    field_congr config .humidity p q fun i (hi : i < 8) => h (0 + i) (by omega) (by omega) (by omega)
  simp only [readingOf, hid, hbattery, hchannel, htemp, hhumidity]

/-- Settles O51: division with remainder by 10, and the ranges of 12 bits. -/
theorem temperatureIsTempRawTenths : Obligations.TemperatureIsTempRawTenths := by
  unfold Obligations.TemperatureIsTempRawTenths
  intro r
  have hlt : r.tempRaw.toNat ≤ 4095 := Nat.le_of_lt_succ r.tempRaw.isLt
  rw [temperature_config]
  refine ⟨?_, Nat.mod_lt _ (by decide), by positivity, ?_, ?_⟩
  · have hsplit : (10 * r.tempWhole + r.tempTenth : Rat) = r.tempRaw.toNat := by
      exact_mod_cast Nat.div_add_mod r.tempRaw.toNat 10
    rw [← hsplit]
    ring
  · exact div_le_div_of_nonneg_right (by exact_mod_cast hlt) (by norm_num)
  · intro c hsigned
    have hlow := BitVec.le_toInt r.tempRaw
    have hhigh := BitVec.toInt_lt (x := r.tempRaw)
    rw [tempTenths, if_pos hsigned]
    omega

end Sys2Proof.Proofs
end

section
/-! PROOFS. The environment (60_exceptions.md R152): what an edge, a re-arm and a reset do to a packet that is ready,
and how the environment's notes follow (log 25). -/

namespace Sys2Proof.Machine

@[simp] theorem Act.perform_rearm (s : State) : Act.rearm.perform s = .next { s with enable := true } := rfl

@[simp] theorem Act.perform_reset (s : State) : Act.reset.perform s
    = .next { s with state := .searchSyncHigh, acc := 0, bitCount := 0, lastTs := 0, enable := true } := rfl

@[simp] theorem Act.perform_decode (p : DecPacket) (now : Timestamp) (s : State) :
    (Act.decode p now).perform s = .next { s with reading := readingOf config p now } := rfl

theorem State.ready_iff (s : State) : s.ready = true ↔ s.enable = false := by
  rw [State.ready, Bool.not_eq_true']

theorem Act.answer_poll_iff (e : Environment) (s : State) (v : Bool) :
    Act.poll.answer e s = .ready v ↔ s.ready = v := by
  rw [Act.answer, Answer.ready.injEq]

/-- Of all interactions only a `HIGH` edge takes an enabled block to a ready one, and the counter from 35 to 36
(41_assembler.md R102). -/
theorem Act.completes {a : Act} {s t : State} (h : a.perform s = .next t) (hs : s.enable = true)
    (ht : t.enable = false) :
    (∃ ts time, a = .edge ts .high time) ∧ s.bitCount = 35 ∧ t.bitCount = 36 ∧ t.ready = true := by
  cases a with
  | edge ts level time =>
    obtain ⟨hoff, -⟩ | ⟨-, rfl, hk, hcount⟩ := edge_ready ts level s t h ht
    · exact absurd_of_true_of_false hs hoff
    · exact ⟨⟨ts, time, rfl⟩, BitVec.eq_of_toNat_eq hk, hcount.trans (bitCount_add_one_of_last _ hk),
        (State.ready_iff t).2 ht⟩
  | poll | take | decode =>
    cases h
    exact absurd_of_true_of_false hs ht
  | rearm | reset =>
    cases h
    cases ht

/-- What the environment keeps after an edge that completes a packet. -/
theorem Environment.after_edge_completes (e : Environment) (ts : Timestamp) (level : Level) (time : Nat) (s t : State)
    (hs : s.enable = true) (ht : t.enable = false) :
    e.after (.edge ts level time) s t
      = { e with clock := time, checked := false, taken := 0, packet := 0, decoded := false, mayRearm := true } := by
  rw [Environment.after, hs, (State.ready_iff t).2 ht]
  rfl

/-- What it keeps after any other edge. -/
theorem Environment.after_edge_else (e : Environment) (ts : Timestamp) (level : Level) (time : Nat) (s t : State)
    (h : ¬ (s.enable = true ∧ t.enable = false)) : e.after (.edge ts level time) s t = { e with clock := time } := by
  rw [Environment.after, if_neg]
  rwa [Bool.and_eq_true, State.ready_iff]

/-- The notes after an edge: those of a new packet if it completes one, else the old ones with the time. -/
theorem Environment.after_edge_cases (e : Environment) (ts : Timestamp) (level : Level) (time : Nat) (s t : State) :
    (s.enable = true ∧ t.enable = false)
    ∨ e.after (.edge ts level time) s t = { e with clock := time } := by
  by_cases hc : s.enable = true ∧ t.enable = false
  · exact .inl hc
  · exact .inr (e.after_edge_else ts level time s t hc)

/-- The bits read of a packet after one more take are the packet's (20_memory.md R35). -/
theorem taken_or_part (acc taken part : Acc) :
    acc &&& taken &&& ~~~part ||| acc &&& part = acc &&& (taken ||| part) := by
  apply BitVec.eq_of_getLsbD_eq
  intro j hj
  simp only [BitVec.getLsbD_or, BitVec.getLsbD_and, BitVec.getLsbD_not, decide_eq_true hj, Bool.true_and]
  cases acc.getLsbD j <;> cases taken.getLsbD j <;> cases part.getLsbD j <;> rfl

/-- The notes agree with an enabled block as long as no poll has found it ready. -/
theorem Environment.agrees_of_enabled (e : Environment) (s : State) (hs : s.enable = true) (he : e.checked = false) :
    e.Agrees s :=
  ⟨fun hready => absurd_of_true_of_false hs ((State.ready_iff s).1 hready),
    fun hchecked => absurd_of_true_of_false hchecked he⟩

/-- Every edge keeps the notes agreeing. -/
theorem Environment.agrees_after_edge {e : Environment} {ts : Timestamp} {level : Level} {time : Nat} {s t : State}
    (hagrees : e.Agrees s) (h : exec (.edge ts level) s = .next t) : (e.after (.edge ts level time) s t).Agrees t := by
  obtain ⟨hready, hchecked⟩ := hagrees
  cases hs : s.enable
  · have hsame : t = s := by
      rw [exec_edge_disabled ts level s hs] at h
      cases h
      rfl
    rw [hsame, e.after_edge_else ts level time s s fun hc => absurd_of_true_of_false hc.1 hs]
    exact ⟨hready, hchecked⟩
  · have hnot : e.checked = false := by
      rw [← Bool.not_eq_true]
      exact fun hc => absurd_of_true_of_false hs ((State.ready_iff s).1 (hchecked hc))
    cases ht : t.enable
    · rw [e.after_edge_completes ts level time s t hs ht]
      exact ⟨fun _ => ⟨(BitVec.and_zero).symm, rfl⟩, nofun⟩
    · rw [e.after_edge_else ts level time s t fun hc => absurd_of_true_of_false ht hc.2]
      exact Environment.agrees_of_enabled _ t ht hnot

/-- The note of a decode is cleared by the completion of the next packet alone (70_reset_and_hazards.md R165). -/
theorem Environment.completes_of_decoded_cleared {e : Environment} {a : Act} {s t : State} (hnoted : e.decoded = true)
    (hcleared : (e.after a s t).decoded = false) : s.enable = true ∧ t.enable = false := by
  cases a with
  | edge ts level time =>
    obtain hc | hkept := e.after_edge_cases ts level time s t
    · exact hc
    · rw [hkept] at hcleared
      exact absurd_of_true_of_false hnoted hcleared
  | poll | take | rearm => exact absurd_of_true_of_false hnoted hcleared
  | decode | reset => cases hcleared

/-- The note of a `REARM` is cleared by a `RESET` or by the completion of the next packet (70_reset_and_hazards.md
R157, R158). -/
theorem Environment.completes_of_rearm_allowed {e : Environment} {a : Act} {s t : State} (hnoted : e.mayRearm = false)
    (hcleared : (e.after a s t).mayRearm = true) : a = .reset ∨ (s.enable = true ∧ t.enable = false) := by
  cases a with
  | edge ts level time =>
    obtain hc | hkept := e.after_edge_cases ts level time s t
    · exact .inr hc
    · rw [hkept] at hcleared
      exact absurd_of_true_of_false hcleared hnoted
  | poll | take | decode => exact absurd_of_true_of_false hcleared hnoted
  | rearm => cases hcleared
  | reset => exact .inl rfl

/-- Only a poll that finds the packet ready makes the check (70_reset_and_hazards.md R158). -/
theorem Environment.poll_of_checked {e : Environment} {a : Act} {s t : State} (hnot : e.checked = false)
    (hchecked : (e.after a s t).checked = true) : a = .poll ∧ s.enable = false := by
  cases a with
  | edge ts level time =>
    obtain ⟨hs, ht⟩ | hkept := e.after_edge_cases ts level time s t
    · rw [e.after_edge_completes ts level time s t hs ht] at hchecked
      cases hchecked
    · rw [hkept] at hchecked
      exact absurd_of_true_of_false hchecked hnot
  | poll => exact ⟨rfl, (State.ready_iff s).1 hchecked⟩
  | take | decode => exact absurd_of_true_of_false hchecked hnot
  | rearm | reset => cases hchecked

/-- A `REARM`, a `RESET` and a completion undo the check (70_reset_and_hazards.md R158). -/
theorem Environment.unchecked_after {e : Environment} {a : Act} {s t : State} (h : a.perform s = .next t)
    (ha : a = .rearm ∨ a = .reset ∨ s.enable = true ∧ t.enable = false) : (e.after a s t).checked = false := by
  obtain rfl | rfl | ⟨hs, ht⟩ := ha
  · rfl
  · rfl
  · obtain ⟨⟨ts, time, rfl⟩, -⟩ := Act.completes h hs ht
    rw [e.after_edge_completes ts .high time s t hs ht]

theorem readerDuty_take_iff (e : Environment) (part : Acc) (s : State) :
    readerDuty e (.take part) s = true ↔ s.enable = false ∧ e.checked = true := by
  rw [readerDuty, Bool.and_eq_true, State.ready_iff]

theorem readerDuty_rearm_iff (e : Environment) (s : State) :
    readerDuty e .rearm s = true ↔ e.taken = BitVec.allOnes 36 ∧ e.mayRearm = true := by
  rw [readerDuty, Bool.and_eq_true, e.finished_iff]

theorem readerDuty_decode_iff (e : Environment) (p : DecPacket) (now : Timestamp) (s : State) :
    readerDuty e (.decode p now) s = true
      ↔ s.enable = false ∧ e.taken = BitVec.allOnes 36 ∧ p.setWidth 36 = e.packet ∧ e.decoded = false := by
  simp only [readerDuty, Bool.and_eq_true, State.ready_iff, e.finished_iff, beq_iff_eq, Bool.not_eq_true', and_assoc]

/-- What an agreeing environment has read whole is the packet the block holds (20_memory.md R35). -/
theorem Environment.packet_eq_of_finished {e : Environment} {s : State} (hagrees : e.Agrees s) (hs : s.enable = false)
    (hall : e.taken = BitVec.allOnes 36) : e.packet = s.acc := by
  obtain ⟨hpacket, -⟩ := hagrees.1 ((State.ready_iff s).2 hs)
  rw [hpacket, hall, BitVec.and_allOnes]

/-- A wider word reads as the 36 bits it ends in (43_field_decoder.md R128). -/
theorem readingOf_setWidth (p : DecPacket) (now : Timestamp) :
    readingOf config p now = readingOf config (p.setWidth 36) now := by
  apply Proofs.unusedBitsAreIgnored
  intro j hj _ _
  rw [BitVec.getLsbD_setWidth, decide_eq_true hj, Bool.true_and]

end Sys2Proof.Machine

namespace Sys2Proof.Proofs
open Sys2Proof.Machine

/-- Settles O57, row by row of the table. -/
theorem environmentGetsBackWhatTheTableSays : Obligations.EnvironmentGetsBackWhatTheTableSays := by
  unfold Obligations.EnvironmentGetsBackWhatTheTableSays
  intro e s
  have hseen : s.enable = false → e.packetSeen s = s.acc := fun hs => e.packetSeen_ready s ((State.ready_iff s).2 hs)
  refine ⟨?_, ?_, ?_, ?_, ?_, ?_, ?_, rfl, Act.perform_rearm s, rfl, ⟨_, Act.perform_reset s, rfl⟩,
    Act.perform_poll s, fun part => Act.perform_take part s⟩
  · exact (Act.answer_poll_iff e s true).trans (State.ready_iff s)
  · exact (Act.answer_poll_iff e s false).trans (by rw [State.ready, Bool.not_eq_false'])
  · intro hs
    rw [Act.answer, hseen hs, BitVec.and_allOnes]
  · intro hs part
    refine ⟨s.acc &&& part, ?_, fun j => BitVec.getLsbD_and⟩
    rw [Act.answer, hseen hs]
  · exact fun _ part => ⟨e.packetSeen s, rfl⟩
  · exact fun p now => ⟨_, Act.perform_decode p now s, rfl, rfl⟩
  · exact fun ts level time => ⟨rfl, Act.perform_edge ts level time s⟩

/-- Settles O58, interaction by interaction. -/
theorem everyInteractionKeepsWhatWasTaken : Obligations.EveryInteractionKeepsWhatWasTaken := by
  unfold Obligations.EveryInteractionKeepsWhatWasTaken
  refine ⟨fun loss => Environment.agrees_of_enabled _ _ rfl rfl, ?_⟩
  intro e s t a hagrees h
  cases a with
  | edge ts level time => exact Environment.agrees_after_edge hagrees h
  | poll =>
    cases h
    exact ⟨hagrees.1, id⟩
  | take part =>
    cases h
    obtain ⟨hready, hchecked⟩ := hagrees
    refine ⟨fun hs => ?_, hchecked⟩
    obtain ⟨hpacket, hrearm⟩ := hready hs
    refine ⟨?_, hrearm⟩
    simp only [Environment.after]
    rw [hpacket, e.packetSeen_ready s hs, taken_or_part]
  | decode p now =>
    cases h
    exact hagrees
  | rearm =>
    cases h
    exact Environment.agrees_of_enabled _ _ rfl rfl
  | reset =>
    cases h
    exact Environment.agrees_of_enabled _ _ rfl rfl

/-- Settles O59: a word decoded dutifully ends in what was read whole, which is `acc`. -/
theorem dutifulDecodeReadsThePacketHeld : Obligations.DutifulDecodeReadsThePacketHeld := by
  unfold Obligations.DutifulDecodeReadsThePacketHeld
  intro e s hagrees
  refine ⟨?_, ?_, ?_⟩
  · intro p now hduty
    obtain ⟨hs, hall, hword, -⟩ := (readerDuty_decode_iff e p now s).1 hduty
    refine ⟨?_, hs, fun t _ => rfl⟩
    rw [Act.answer, readingOf_setWidth, hword, Environment.packet_eq_of_finished hagrees hs hall]
  · intro hnoted p now
    rw [← Bool.not_eq_true, readerDuty_decode_iff]
    rintro ⟨-, -, -, hnot⟩
    exact absurd_of_true_of_false hnoted hnot
  · intro a t h hnoted hcleared
    obtain ⟨hs, ht⟩ := Environment.completes_of_decoded_cleared hnoted hcleared
    exact Act.completes h hs ht

/-- Settles O60, clause by clause: the duties as conditions on the notes, and the interactions that change a note. -/
theorem readerRearmsOncePerPacketReadWhole : Obligations.ReaderRearmsOncePerPacketReadWhole := by
  unfold Obligations.ReaderRearmsOncePerPacketReadWhole
  intro e s hagrees
  have hchecked : e.checked = true → s.enable = false := fun hc => (State.ready_iff s).1 (hagrees.2 hc)
  refine ⟨?_, hchecked, ?_, ?_, ?_, ?_, ?_, ?_⟩
  · intro part
    rw [readerDuty_take_iff]
    exact ⟨And.right, fun hc => ⟨hchecked hc, hc⟩⟩
  · exact fun a t h => ⟨Environment.poll_of_checked, Environment.unchecked_after h⟩
  · intro hs
    obtain ⟨-, hrearm⟩ := hagrees.1 ((State.ready_iff s).2 hs)
    rw [readerDuty_rearm_iff]
    exact ⟨And.left, fun hall => ⟨hall, hrearm⟩⟩
  · intro hs hduty
    exact Environment.packet_eq_of_finished hagrees hs ((readerDuty_rearm_iff e s).1 hduty).1
  · intro t u
    refine ⟨rfl, ?_⟩
    rw [← Bool.not_eq_true, readerDuty_rearm_iff]
    exact fun hduty => nomatch hduty.2
  · intro hnot
    rw [← Bool.not_eq_true, readerDuty_rearm_iff]
    exact fun hduty => absurd_of_true_of_false hduty.2 hnot
  · intro a t h hnot hallowed
    obtain hreset | ⟨hs, ht⟩ := Environment.completes_of_rearm_allowed hnot hallowed
    · exact .inl hreset
    · exact .inr (Act.completes h hs ht)

end Sys2Proof.Proofs
end
